-- ==== Sys2Proof/Word.lean ====
section
/-! DEFINITION. The bit-vector types of the engine: bytes of system memory and 32-bit register words
(spec 00_scope.md R8, R11, R12). -/

namespace Sys2Proof

/-- A byte: an integer in [0, 256) (R12). -/
abbrev Byte := BitVec 8

/-- A 32-bit register value (R10, REG_W of R8). -/
abbrev Word := BitVec 32

end Sys2Proof
end

