-- ==== Sys2Proof/Config.lean ====
section
/-! DEFINITION. What the spec fixes as constants, the parameters it leaves OPEN (R9), held as plain
data, and the free values: opaque constants that nothing in Lean can evaluate. -/

namespace Sys2Proof

/-- The 256-bit key K as 32 bytes (R7, R33). -/
abbrev Key := Vector Byte 32

/-- The 12-byte nonce N (R7, R34). -/
abbrev Nonce := Vector Byte 12

/-- A 16-byte tag (R7). -/
abbrev Tag := Vector Byte 16

/-- One keystream block, 64 bytes (R7). -/
abbrev KsBlock := Vector Byte 64

/-- ID (R22, R2). -/
def Config.idValue : Word := 0x0C201305

/-- VERSION (R23): MAJOR 1, MINOR 0. -/
def Config.versionValue : Word := 0x00010000

/-- The number of system-memory addresses, 2^32 (ADDR_W of R8, R60). -/
def Config.addrSpace : Nat := 2 ^ 32

/-- Bytes of register offsets (CSR_WINDOW of R8). -/
def Config.csrWindow : Nat := 0x100

/-- Free value: byte `a` of the `n`-th unknown power-up image (R244, U2: "any value"). -/
opaque Config.powerUpByte : Nat → Nat → Byte

/-- Free value: the `n`-th unknown keystream collaborator's block function (R180, U7). -/
opaque Config.ksBlock : Nat → Key → Nonce → Word → KsBlock

/-- Free value: whether the `n`-th unknown keystream collaborator accepts K and N (R114, U8). -/
opaque Config.ksInitOk : Nat → Key → Nonce → Bool

/-- Free value: the `n`-th unknown MAC collaborator (R181, U7). -/
opaque Config.macTag : Nat → Key → List Byte → Tag

/-- Free value: whether the `n`-th drawn host read of a cached byte sees the stale copy (R78, U12). -/
opaque Config.staleRead : Nat → Bool

/-- Which collaborator the platform has (R182). -/
inductive Collaborator where
  /-- The default instantiation, RFC 8439 (R183 to R185; PRESUMED, log 11). -/
  | rfc8439
  /-- The `n`-th unknown one: the opaque functions above, of which nothing is assumed (R182). -/
  | other (n : Nat)
  deriving DecidableEq, Repr

/-- The contents of system memory at power-up (R244, U2). -/
inductive PowerUp where
  /-- Every byte the same known value. -/
  | fill (b : Byte)
  /-- The `n`-th unknown image. -/
  | unknown (n : Nat)
  deriving DecidableEq, Repr

/-- What the platform does with a bus-master access to a region (R68, D35, D39). -/
inductive RegionKind where
  /-- Reads end in a bus error. -/
  | noRead
  /-- Writes end in a bus error. -/
  | noWrite
  /-- Reads and writes end in a bus error. -/
  | noAccess
  /-- A device with read or write side effects: a buffer there is outside the spec (R67, U11). -/
  | device
  deriving DecidableEq, Repr

/-- A region of system memory in which the platform departs from ordinary memory. -/
structure Region where
  base : Nat
  len  : Nat
  kind : RegionKind
  deriving DecidableEq, Repr

/-- The parameters of R9 that are not constants, which no step changes (R47). Lists of regions express
every MEM_OK there is over the finite address space. -/
structure Platform where
  /-- CSR_BASE (D36). -/
  csrBase  : Word
  /-- MEM_OK outside the register window (D35), and where the devices are (D39). -/
  regions  : List Region
  /-- DMA_COHERENT (D21). -/
  coherent : Bool
  /-- KSBlock and KS_INIT_OK (D30, D31). -/
  cipher   : Collaborator
  /-- The keys and nonces KS_INIT_OK refuses beside what `cipher` refuses (R114, D31; DESIGN CHOICE, log 11). -/
  refuses  : List (Key × Nonce)
  /-- MacTag (D30). -/
  mac      : Collaborator
  deriving DecidableEq, Repr

/-- The platform of the state right after reset (DESIGN CHOICE, log 3): the window where 95_test_vectors.md §2.7 puts it,
all memory accessible, coherent, the default collaborators (R182). -/
def Platform.default : Platform :=
  { csrBase := 0xF0000000, regions := [], coherent := true, cipher := .rfc8439, refuses := [],
    mac := .rfc8439 }

end Sys2Proof
end

