-- ==== Sys2Proof/Syntax.lean ====
section
/-! DEFINITION. The instructions: the command words written to CMD, one constructor per row of
spec/opcode_table.json (R90, R92). -/

namespace Sys2Proof

/-- A command (R92). -/
inductive Instr where
  /-- SEAL, word 0x0000_0001 (R162). -/
  | sealCmd
  /-- OPEN, word 0x0000_0002 (R163). -/
  | openCmd
  /-- BAD_CMD: any other word, carried here (R93, R164). -/
  | badCmd (w : Word)
  deriving DecidableEq, Repr

end Sys2Proof
end

