-- ==== Sys2Proof/WellFormed.lean ====
section
/-! DEFINITION. Which instructions a word can stand for: a reserved command carries a word that is
neither SEAL nor OPEN (R93, R94). -/

namespace Sys2Proof

/-- The word of a reserved command has a nonzero RSVD field or a reserved OP (R93). -/
def Instr.wf : Instr → Bool
  | .sealCmd => true
  | .openCmd => true
  | .badCmd w => w != 1 && w != 2

end Sys2Proof
end

