-- ==== Sys2Proof/Decode.lean ====
section
/-! DEFINITION. The command word's fields, the decoder of R94, the rows of the opcode table, and the
encoder. -/

namespace Sys2Proof

/-- CMD.OP, bits 3:0 (R90). -/
def cmdOp (w : Word) : BitVec 4 := w.extractLsb' 0 4

/-- CMD.RSVD, bits 31:4 (R90). -/
def cmdRsvd (w : Word) : BitVec 28 := w.extractLsb' 4 28

/-- The decoder of R94, total on every 32-bit word. -/
def decode (w : Word) : Instr :=
  if cmdRsvd w ≠ 0 then .badCmd w
  else if cmdOp w = 1 then .sealCmd
  else if cmdOp w = 2 then .openCmd
  else .badCmd w

/-- The word of a command (R92): RSVD above OP. -/
def encode : Instr → Word
  | .sealCmd => (0 : BitVec 28) ++ (1 : BitVec 4)
  | .openCmd => (0 : BitVec 28) ++ (2 : BitVec 4)
  | .badCmd w => w

/-- Why a number is no command word. -/
inductive DecodeReject where
  /-- It has more bits than the one word every command is (R90). -/
  | longerThanOneWord
  deriving DecidableEq, Repr

/-- The decoder on a number of any size: a command is exactly one 32-bit word (R90). -/
def decodeNat (w : Nat) : Except DecodeReject Instr :=
  if w < 2 ^ 32 then .ok (decode (BitVec.ofNat 32 w)) else .error .longerThanOneWord

/-- The instruction the decoder reads from the bits `w`, the bits at and above `nbits` being zero. -/
def decodeTableWord (nbits w : Nat) : Option Instr :=
  match decodeNat (w % 2 ^ nbits) with
  | .ok i => some i
  | .error _ => none

/-- A row of spec/opcode_table.json. -/
structure OpcodeRow where
  mnemonic : String
  pattern  : Word
  mask     : Word
  deriving DecidableEq, Repr

/-- The rows of spec/opcode_table.json in order: SEAL and OPEN take precedence over the default row. -/
def opcodeRows : List OpcodeRow :=
  [ { mnemonic := "SEAL", pattern := 1, mask := 0xFFFFFFFF },
    { mnemonic := "OPEN", pattern := 2, mask := 0xFFFFFFFF },
    { mnemonic := "BAD_CMD", pattern := 0, mask := 0 } ]

/-- The row a word belongs to: the first one whose mask and pattern it meets. -/
def opcodeRow (w : Word) : Option OpcodeRow :=
  opcodeRows.find? fun r => w &&& r.mask == r.pattern

/-- The mnemonic of an instruction, as the table has it. -/
def Instr.mnemonic : Instr → String
  | .sealCmd => "SEAL"
  | .openCmd => "OPEN"
  | .badCmd _ => "BAD_CMD"

end Sys2Proof
end

