-- ==== Sys2Proof/Machine/Memory.lean ====
section
/-! DEFINITION. System memory: a list of (address, byte) cells in one canonical form over the power-up
image (R60, R244). -/

namespace Sys2Proof.Machine

/-- System memory: the cells whose byte is not the power-up image's, addresses strictly rising. -/
structure Memory where
  image : PowerUp
  cells : List Host.Cell
  deriving DecidableEq, Repr

/-- The byte of an image at an address (R244, U2). -/
def imageByte (p : PowerUp) (a : Nat) : Byte :=
  match p with
  | .fill b => b
  | .unknown n => Config.powerUpByte n a

/-- The byte listed at `a`, if any. -/
def findCell (a : Nat) : List Host.Cell → Option Byte
  | [] => none
  | c :: cs => if a = c.1 then some c.2 else findCell a cs

/-- List `v` at `a`, keeping addresses strictly rising. -/
def putCell (a : Nat) (v : Byte) : List Host.Cell → List Host.Cell
  | [] => [(a, v)]
  | c :: cs =>
    if a < c.1 then (a, v) :: c :: cs
    else if a = c.1 then (a, v) :: cs
    else c :: putCell a v cs

/-- Unlist `a`. -/
def dropCell (a : Nat) (cs : List Host.Cell) : List Host.Cell :=
  cs.filter fun c => c.1 ≠ a

/-- The byte at `a`: what the list says, else the power-up image (R60). -/
def Memory.read (m : Memory) (a : Nat) : Byte :=
  (findCell a m.cells).getD (imageByte m.image a)

/-- Write byte `v` at `a`. -/
def Memory.write (m : Memory) (a : Nat) (v : Byte) : Memory :=
  { m with cells := if v = imageByte m.image a then dropCell a m.cells else putCell a v m.cells }

/-- The canonical form: strictly rising addresses below 2^32, none listed with the image's own byte. -/
abbrev Memory.wf (m : Memory) : Prop :=
  m.cells.Pairwise (fun c d => c.1 < d.1) ∧
    ∀ c ∈ m.cells, c.1 < Config.addrSpace ∧ c.2 ≠ imageByte m.image c.1

/-- The bytes at a, a+1, ..., a+n-1 (R60). -/
def Memory.readSeq (m : Memory) (a n : Nat) : List Byte :=
  (List.range n).map fun i => m.read (a + i)

/-- Memory with `bs` written at a, a+1, ... in ascending order (R14). -/
def Memory.writeSeq (m : Memory) (a : Nat) : List Byte → Memory
  | [] => m
  | b :: bs => (m.write a b).writeSeq (a + 1) bs

end Sys2Proof.Machine
end

