-- ==== Sys2Proof/Machine/State.lean ====
section
/-! DEFINITION. The state: the engine's registers and hidden state (R20 to R49), system memory, the
platform's parameters, the host's side of the port, and the state right after reset (R240). -/

namespace Sys2Proof.Machine

/-- The result codes of R200. The reserved codes have no constructor: no command produces one. -/
inductive Result where
  | ok
  | authFail
  | badCmd
  | overlap
  | range
  | construct
  | busErr
  deriving DecidableEq, Repr

/-- The phases of R40. -/
inductive Phase where
  | idle
  | check
  | keySched
  | xform
  | macBuild
  | tag
  | zeroFill
  deriving DecidableEq, Repr

/-- Where the engine stands: the phase of R40 refined by what the next step of the command does. -/
inductive Pos where
  | idle
  /-- CHECK (R150). -/
  | check
  /-- KEYSCHED (R110). -/
  | keySched
  /-- XFORM, before the read of byte `i` (R120). -/
  | xformRead (i : Nat)
  /-- XFORM, byte `i` read and transformed to `y`, before its write (R120). -/
  | xformWrite (i : Nat) (y : Byte)
  /-- MACBUILD, before the read of AD byte `i` (R130). -/
  | macAd (i : Nat)
  /-- MACBUILD, before the read of ciphertext byte `i` (R130, OPEN). -/
  | macCt (i : Nat)
  /-- TAG, before the tag is computed (R140). -/
  | tagCompute
  /-- TAG, before the write of tag byte `i` (R141, SEAL). -/
  | tagWrite (i : Nat)
  /-- TAG, before the read of claimed-tag byte `i` (R142, OPEN). -/
  | tagRead (i : Nat)
  /-- TAG, before the compare (R143, OPEN). -/
  | tagCompare
  /-- TAG, before the verdict is used (R144, OPEN). -/
  | tagVerdict
  /-- ZEROFILL, before the write of zero at byte `i` (R145, OPEN). -/
  | zeroFill (i : Nat)
  deriving DecidableEq, Repr

/-- The registers that hold a value (R24 to R35); ID and VERSION are constants (R22, R23). -/
structure Regs where
  /-- CTRL.IE (R24). -/
  ie      : Bool
  /-- STATUS.BUSY (R26). -/
  busy    : Bool
  /-- STATUS.DONE (R26). -/
  done    : Bool
  /-- STATUS.FATAL (R26). -/
  fatal   : Bool
  /-- STATUS.IGN (R26). -/
  ign     : Bool
  /-- STATUS.RESULT (R26, R200). -/
  result  : Result
  /-- IN_ADDR (R28). -/
  inAddr  : Word
  /-- IN_LEN (R29). -/
  inLen   : Word
  /-- AD_ADDR (R30). -/
  adAddr  : Word
  /-- AD_LEN (R31). -/
  adLen   : Word
  /-- OUT_ADDR (R32). -/
  outAddr : Word
  /-- OUT_LEN (R35). -/
  outLen  : Word
  /-- KEY0 to KEY7 (R33). -/
  key     : Vector Word 8
  /-- NONCE0 to NONCE2 (R34). -/
  nonce   : Vector Word 3
  deriving DecidableEq, Repr

/-- The hidden state (R40 to R45) and the temporaries of the running command's stages (R210). -/
structure Hidden where
  /-- PHASE (R40), refined. -/
  pos      : Pos
  /-- OP (R45): NONE is none. -/
  op       : Option Instr
  /-- OTK (R41). -/
  otk      : Key
  /-- KSPOS (R42). -/
  kspos    : Nat
  /-- MACBUF (R43). -/
  macbuf   : List Byte
  /-- ETAG (R44). -/
  etag     : Tag
  /-- CTAG (R44). -/
  ctag     : Tag
  /-- DIFF (R44). -/
  diff     : Byte
  /-- A of R130: the AD bytes read so far. -/
  adBytes  : List Byte
  /-- C of R130 in OPEN: the ciphertext bytes read so far. -/
  ctBytes  : List Byte
  /-- OUTBYTES of R120. -/
  outBytes : List Byte
  deriving DecidableEq, Repr

/-- The width of a host access to the register window (R21). -/
inductive Width where
  | b8
  | b16
  | b32
  | b64
  deriving DecidableEq, Repr

/-- A host statement (R96), the accesses R21 calls malformed and the cache maintenance of R78 included. -/
inductive HostStmt where
  /-- `wr32 R, v` for width b32; any other width is malformed (R21). -/
  | wr (off : BitVec 8) (width : Width) (v : Word)
  /-- `rd32 R -> x` for width b32. -/
  | rd (off : BitVec 8) (width : Width)
  /-- `poll R, m, v`. -/
  | poll (off : BitVec 8) (mask v : Word)
  /-- `mem a := B`. -/
  | memWrite (a : Nat) (bs : List Byte)
  /-- `mem a ? n -> x`. -/
  | memRead (a n : Nat)
  /-- The host invalidates its caches over [a, a+n) (R78). -/
  | invalidate (a n : Nat)
  deriving DecidableEq, Repr

/-- What the host got back (R96). -/
inductive Reply where
  /-- A register's value. -/
  | word (w : Word)
  /-- Bytes of memory. -/
  | bytes (bs : List Byte)
  /-- The error response to a write (R21). -/
  | error
  /-- The error response to a read, and the value that read returns (R21). -/
  | readError (w : Word)
  deriving DecidableEq, Repr

/-- Who moves in a step: an agent of R6, or the platform's reset input (R240). -/
inductive Turn where
  | engine
  | host
  | assertReset
  | releaseReset
  deriving DecidableEq, Repr

/-- The whole machine. -/
structure State where
  /-- The engine's registers (10_state.md §2). -/
  regs        : Regs
  /-- The engine's hidden state (10_state.md §3). -/
  hid         : Hidden
  /-- System memory (R60). -/
  mem         : Memory
  /-- The parameters (R9, R47). -/
  plat        : Platform
  /-- The reset input is asserted (R240). -/
  resetIn     : Bool
  /-- Who moves next; when empty, the engine while busy and else the host (DESIGN CHOICE, log 2). -/
  turns       : List Turn
  /-- The host's statements still to issue (R96). -/
  script      : List HostStmt
  /-- What the host got back, newest first (DESIGN CHOICE, log 8). -/
  replies     : List Reply
  /-- The host's cached bytes, used only when DMA_COHERENT is false (R78, U12; DESIGN CHOICE, log 6). -/
  cache       : List Host.Cell
  /-- How many free values have been drawn (DESIGN CHOICE, log 6). -/
  draws       : Nat
  /-- A malformed register access has happened (R21, U10); never cleared (DEDUCED, log 5). -/
  accessFault : Bool
  deriving DecidableEq, Repr

/-- Why a step stops. -/
inductive Fault where
  /-- Raised by a host memory statement on a byte of an active region while a command is busy: the spec
  gives it no meaning (R75, U1). Safe: the model says nothing where the chip would go on. -/
  | hostRace
  /-- Raised by a host memory statement on an address at or above 2^32, which does not exist (R60). Safe. -/
  | hostNoSuchAddress
  /-- Raised by a command's meaning at a position its own rule does not have; no run from reset gets
  there (DESIGN CHOICE, log 9). Safe. -/
  | offSequence
  deriving DecidableEq, Repr

/-- Why a step has no meaning. -/
inductive Refusal where
  /-- An arm of exec that has no meaning yet. Safe: nothing is claimed of it. -/
  | notModelled (mnemonic : String)
  /-- Raised by an engine access to a device region: a buffer there is outside the spec (R67, U11; DESIGN CHOICE,
  log 10). Safe. -/
  | deviceBuffer
  deriving DecidableEq, Repr

/-- The outcome of a step of this machine. -/
abbrev Out := Host.Outcome State Fault Refusal

/-- The reset value of every register (R240). -/
def Regs.reset : Regs :=
  { ie := false, busy := false, done := false, fatal := false, ign := false, result := .ok,
    inAddr := 0, inLen := 0, adAddr := 0, adLen := 0, outAddr := 0, outLen := 0,
    key := Vector.replicate 8 0, nonce := Vector.replicate 3 0 }

/-- The value of the hidden state at reset and whenever the engine is idle (R46, R240). -/
def Hidden.zero : Hidden :=
  { pos := .idle, op := none, otk := Vector.replicate 32 0, kspos := 0, macbuf := [],
    etag := Vector.replicate 16 0, ctag := Vector.replicate 16 0, diff := 0,
    adBytes := [], ctBytes := [], outBytes := [] }

/-- The machine right after reset (R240): the engine at its reset values, the reset input released,
nothing listed in memory (DESIGN CHOICE, log 4), the host with nothing to do. -/
def State.reset : State :=
  { regs := Regs.reset, hid := Hidden.zero,
    mem := { image := .fill 0, cells := [] },
    plat := Platform.default, resetIn := false, turns := [], script := [], replies := [],
    cache := [], draws := 0, accessFault := false }

end Sys2Proof.Machine
end

