-- ==== Sys2Proof/Machine/Operands.lean ====
section
/-! DEFINITION. The operands of a command (R17, R91), the packing of bytes into registers (R33, R34),
regions, and the byte-string notation of R12. -/

namespace Sys2Proof.Machine

/-- Byte `b` of a register word: bits [8b+7:8b] (R33). -/
def wordByte (w : Word) (b : Nat) : Byte := w.extractLsb' (8 * b) 8

/-- The register word of four bytes, byte 0 in bits 7:0 (R97). -/
def packWord (b0 b1 b2 b3 : Byte) : Word := b3 ++ b2 ++ b1 ++ b0

/-- K: byte 4j+b is byte b of KEYj (R33). -/
def State.keyBytes (s : State) : Key :=
  Vector.ofFn fun i => wordByte (s.regs.key[i.val / 4]) (i.val % 4)

/-- N: byte 4j+b is byte b of NONCEj (R34). -/
def State.nonceBytes (s : State) : Nonce :=
  Vector.ofFn fun i => wordByte (s.regs.nonce[i.val / 4]) (i.val % 4)

/-- INA (R17). -/
def State.ina (s : State) : Nat := s.regs.inAddr.toNat

/-- INL (R17). -/
def State.inl (s : State) : Nat := s.regs.inLen.toNat

/-- ADA (R17). -/
def State.ada (s : State) : Nat := s.regs.adAddr.toNat

/-- ADL (R17). -/
def State.adl (s : State) : Nat := s.regs.adLen.toNat

/-- OUTA (R17). -/
def State.outa (s : State) : Nat := s.regs.outAddr.toNat

/-- PLEN of SEAL: the plaintext length (R17). -/
def State.plen (s : State) : Nat := s.inl

/-- CLEN of OPEN: the input length less the tag (R17); used only where INL is at least 16. -/
def State.clen (s : State) : Nat := s.inl - 16

/-- OWIN: the length of the writable window of the running command (R17, R74). -/
def State.owin (s : State) : Nat :=
  match s.hid.op with
  | some .sealCmd => s.plen + 16
  | some .openCmd => s.clen
  | some (.badCmd _) => 0
  | none => 0

/-- Address `x` is one of a, a+1, ..., a+n-1 (R151). -/
def inRegion (a n x : Nat) : Bool := decide (a ≤ x) && decide (x < a + n)

/-- `x` is in an active region of the busy command (R74). -/
def State.active (s : State) (x : Nat) : Bool :=
  s.regs.busy &&
    (inRegion s.ada s.adl x || inRegion s.ina s.inl x || inRegion s.outa s.owin x)

/-- roundUp16 (R12). -/
def roundUp16 (n : Nat) : Nat := 16 * ((n + 15) / 16)

/-- pad16 (R12). -/
def pad16 (bs : List Byte) : List Byte :=
  bs ++ List.replicate (roundUp16 bs.length - bs.length) 0

/-- The low `k` bytes of `n`, least significant first (R12). -/
def leBytes (k n : Nat) : List Byte :=
  (List.range k).map fun i => BitVec.ofNat 8 (n >>> (8 * i))

/-- le64 (R12). -/
def le64 (n : Nat) : List Byte := leBytes 8 n

/-- Bytes read as a little-endian unsigned integer (R185). -/
def leInt : List Byte → Nat
  | [] => 0
  | b :: bs => b.toNat + 256 * leInt bs

end Sys2Proof.Machine
end

