-- ==== Sys2Proof/Machine/Flags.lean ====
section
/-! DEFINITION. The result codes (R200, R201), the STATUS and CTRL words as read, the write-1-to-clear
rule (R26, R27), the interrupt output (R39, R212), and the phase and class of a command (R40, R45). -/

namespace Sys2Proof.Machine

/-- The code of a result (R200). -/
def Result.code : Result → BitVec 4
  | .ok => 0x0
  | .authFail => 0x1
  | .badCmd => 0x2
  | .overlap => 0x8
  | .range => 0x9
  | .construct => 0xA
  | .busErr => 0xB

/-- The fatal class: bit 3 of the code (R201). -/
def Result.isFatal (r : Result) : Bool := r.code.getLsbD 3

/-- STATUS as read (R26): RESULT in 11:8, IGN, FATAL, DONE, BUSY in 3:0, the rest zero. -/
def Regs.statusWord (r : Regs) : Word :=
  (0 : BitVec 20) ++ r.result.code ++ (0 : BitVec 4) ++
    BitVec.ofBool r.ign ++ BitVec.ofBool r.fatal ++ BitVec.ofBool r.done ++ BitVec.ofBool r.busy

/-- CTRL as read: zext_32(IE) (R24). -/
def Regs.ctrlWord (r : Regs) : Word := (0 : BitVec 31) ++ BitVec.ofBool r.ie

/-- A write to STATUS (R27). -/
def Regs.statusWrite (r : Regs) (v : Word) : Regs :=
  { r with
    done := if v[1] then false else r.done
    ign := if v[3] then false else r.ign }

/-- IRQ, the level output (R39, R212). -/
def State.irq (s : State) : Bool := s.regs.ie && s.regs.done

/-- The phase of a position (R40). -/
def Pos.phase : Pos → Phase
  | .idle => .idle
  | .check => .check
  | .keySched => .keySched
  | .xformRead _ => .xform
  | .xformWrite _ _ => .xform
  | .macAd _ => .macBuild
  | .macCt _ => .macBuild
  | .tagCompute => .tag
  | .tagWrite _ => .tag
  | .tagRead _ => .tag
  | .tagCompare => .tag
  | .tagVerdict => .tag
  | .zeroFill _ => .zeroFill

/-- hid[PHASE] (R40). -/
def State.phase (s : State) : Phase := s.hid.pos.phase

/-- hid[OP] as its class: NONE 0, SEAL 1, OPEN 2, BAD_CMD 0xF (R45). -/
def State.opClass (s : State) : BitVec 4 :=
  match s.hid.op with
  | none => 0x0
  | some .sealCmd => 0x1
  | some .openCmd => 0x2
  | some (.badCmd _) => 0xF

end Sys2Proof.Machine
end

