-- ==== Sys2Proof/Machine/Ops.lean ====
section
/-! DEFINITION. The shared operations: MEM_OK and the bus accesses (R14, R69, R205), acceptance (R160),
completion, which plays the role of exception entry (R210), and reset (R240, R241). -/

namespace Sys2Proof.Machine

/-- The direction of a bus-master access (R9). -/
inductive AccessKind where
  | read
  | write
  deriving DecidableEq, Repr

/-- `x` is in the engine's register window (R68). -/
def inCsrWindow (p : Platform) (x : Nat) : Bool :=
  inRegion p.csrBase.toNat Config.csrWindow x

/-- The region kind refuses the access. -/
def denies (k : RegionKind) (acc : AccessKind) : Bool :=
  match k, acc with
  | .noRead, .read => true
  | .noRead, .write => false
  | .noWrite, .read => false
  | .noWrite, .write => true
  | .noAccess, _ => true
  | .device, _ => false

/-- MEM_OK (R9): the address exists, is not the engine's own window (R69), and no region refuses it. -/
def memOk (p : Platform) (acc : AccessKind) (x : Nat) : Bool :=
  decide (x < Config.addrSpace) && !inCsrWindow p x &&
    p.regions.all fun r => !(inRegion r.base r.len x && denies r.kind acc)

/-- `x` is in memory with side effects (R67, U11). -/
def isDevice (p : Platform) (x : Nat) : Bool :=
  p.regions.any fun r => inRegion r.base r.len x && r.kind == .device

/-- Move the engine to a position (R13). -/
def State.goto (s : State) (p : Pos) : State := { s with hid := { s.hid with pos := p } }

/-- The completion step (R210), one atomic step: hidden state zeroized, the result reported. -/
def State.complete (s : State) (r : Result) (outlen : Nat) : State :=
  { s with
    hid := Hidden.zero
    regs := { s.regs with
      outLen := if r = .ok then BitVec.ofNat 32 outlen else 0
      result := r
      fatal := s.regs.fatal || r.isFatal
      busy := false
      done := true } }

/-- `raise r` (R15). -/
def State.raise (s : State) (r : Result) : State := s.complete r 0

/-- `finish OK` (R15). -/
def State.finish (s : State) (outlen : Nat) : State := s.complete .ok outlen

/-- What `MemRead(x, 1)` answers before a device is looked at: `k` of the byte, or BUS_ERR (R14, R205). -/
def State.busRead (s : State) (x : Nat) (k : Byte → State) : Out :=
  if memOk s.plat .read x = false then .next (s.raise .busErr)
  else if isDevice s.plat x then .refused .deviceBuffer
  else .next (k (s.mem.read x))

/-- `MemWrite(x, 1, v)`: `k` of the state with the byte written, or BUS_ERR with nothing written
(R14, R205). -/
def State.busWrite (s : State) (x : Nat) (v : Byte) (k : State → State) : Out :=
  if memOk s.plat .write x = false then .next (s.raise .busErr)
  else if isDevice s.plat x then .refused .deviceBuffer
  else .next (k { s with mem := s.mem.write x v })

/-- STATUS.IGN <- 1 (R38, R214). -/
def State.ignore (s : State) : State := { s with regs := { s.regs with ign := true } }

/-- The accepting branch of R160. -/
def State.accept (s : State) (i : Instr) : State :=
  { s with
    regs := { s.regs with busy := true, done := false, result := .ok, outLen := 0 }
    hid := { s.hid with op := some i, pos := .check } }

/-- What R160 does with a command when the engine is not busy: refused by the fatal lock (R214), or accepted. -/
def State.issue (s : State) (i : Instr) : State :=
  if s.regs.fatal then s.ignore else s.accept i

/-- A host write of `w` to CMD (R160). -/
def State.cmdWrite (s : State) (w : Word) : State :=
  if s.regs.busy then s.ignore else s.issue (decode w)

/-- The reset of R240 on every register and hidden item; memory is not touched (R244). -/
def State.resetEngine (s : State) : State := { s with regs := Regs.reset, hid := Hidden.zero }

/-- The machine with command `i` accepted and the engine to move next, whatever it was doing. -/
def State.placeCommand (s : State) (i : Instr) : State :=
  ({ s with
      regs := { s.regs with fatal := false }
      hid := Hidden.zero
      resetIn := false
      turns := [] } : State).accept i

end Sys2Proof.Machine
end

