-- ==== Sys2Proof/Machine/BufferCheck.lean ====
section
/-! DEFINITION. The buffer range and overlap checker (R150 to R155). -/

namespace Sys2Proof.Machine

/-- InRange (R152). -/
def inRange (a n : Nat) : Bool := decide (a + n ≤ 2 ^ 32)

/-- Inexact (R151). -/
def inexact (a n b m : Nat) : Bool :=
  decide (n ≠ 0) && decide (m ≠ 0) && decide (a ≠ b) &&
    decide (a ≤ b + m - 1) && decide (b ≤ a + n - 1)

/-- What CHECK finds wrong with a SEAL (R162): the length limit (R153), the ranges (R152), the overlap (R154). -/
def State.sealFlaw (s : State) : Option Result :=
  if s.plen > 2 ^ 32 - 17 then some .range
  else if !(inRange s.ada s.adl && inRange s.ina s.plen && inRange s.outa (s.plen + 16)) then
    some .range
  else if inexact s.outa (s.plen + 16) s.ina s.plen then some .overlap
  else none

/-- What CHECK finds wrong with an OPEN (R163): a short input (D15), the ranges (R152), the overlap (R155). -/
def State.openFlaw (s : State) : Option Result :=
  if s.inl < 16 then some .authFail
  else if !(inRange s.ada s.adl && inRange s.ina s.inl && inRange s.outa s.clen) then some .range
  else if inexact s.outa s.clen s.ina s.clen then some .overlap
  else none

/-- The CHECK stage (R150): raise the flaw, or go on to KEYSCHED. No memory access. -/
def State.checkStage (s : State) (flaw : Option Result) : State :=
  match flaw with
  | some r => s.raise r
  | none => s.goto .keySched

end Sys2Proof.Machine
end

