-- ==== Sys2Proof/Machine/MacInput.lean ====
section
/-! DEFINITION. The MAC input buffer builder (R130 to R138). -/

namespace Sys2Proof.Machine

/-- MacInput(A, C) (R131). -/
def macInput (a c : List Byte) : List Byte :=
  pad16 a ++ pad16 c ++ le64 a.length ++ le64 c.length

/-- Read of AD byte `i` (R130). -/
def State.macReadAd (s : State) (i : Nat) : Out :=
  s.busRead (s.ada + i) fun b =>
    { s with hid := { s.hid with adBytes := s.hid.adBytes ++ [b], pos := .macAd (i + 1) } }

/-- Read of ciphertext byte `i` in OPEN (R130). -/
def State.macReadCt (s : State) (i : Nat) : Out :=
  s.busRead (s.ina + i) fun b =>
    { s with hid := { s.hid with ctBytes := s.hid.ctBytes ++ [b], pos := .macCt (i + 1) } }

/-- `hid[MACBUF] <- MacInput(A, C)`, then on to TAG (R130). -/
def State.macAssemble (s : State) (c : List Byte) : State :=
  { s with hid := { s.hid with macbuf := macInput s.hid.adBytes c, pos := .tagCompute } }

end Sys2Proof.Machine
end

