-- ==== Sys2Proof/Machine/Collaborators.lean ====
section
/-! DEFINITION. The collaborators as configuration functions (R180 to R182) and their default
instantiation, RFC 8439 ChaCha20 and Poly1305 (R183 to R185). -/

namespace Sys2Proof.Machine

/-- `<<<` of R184: rotate a word left. -/
def rotl (x : Word) (n : Nat) : Word := (x <<< n) ||| (x >>> (32 - n))

/-- QR(w, a, b, c, d) (R184). -/
def quarterRound (w : Vector Word 16) (a b c d : Fin 16) : Vector Word 16 :=
  let w := w.set a (w[a] + w[b])
  let w := w.set d (rotl (w[d] ^^^ w[a]) 16)
  let w := w.set c (w[c] + w[d])
  let w := w.set b (rotl (w[b] ^^^ w[c]) 12)
  let w := w.set a (w[a] + w[b])
  let w := w.set d (rotl (w[d] ^^^ w[a]) 8)
  let w := w.set c (w[c] + w[d])
  w.set b (rotl (w[b] ^^^ w[c]) 7)

/-- A column round and a diagonal round (R183). -/
def doubleRound (w : Vector Word 16) : Vector Word 16 :=
  let w := quarterRound w 0 4 8 12
  let w := quarterRound w 1 5 9 13
  let w := quarterRound w 2 6 10 14
  let w := quarterRound w 3 7 11 15
  let w := quarterRound w 0 5 10 15
  let w := quarterRound w 1 6 11 12
  let w := quarterRound w 2 7 8 13
  quarterRound w 3 4 9 14

/-- `n` double rounds. -/
def doubleRounds : Nat → Vector Word 16 → Vector Word 16
  | 0, w => w
  | n + 1, w => doubleRounds n (doubleRound w)

/-- The constants of R183. -/
def chachaConst : Vector Word 4 := #v[0x61707865, 0x3320646e, 0x79622d32, 0x6b206574]

/-- Little-endian word `j` of a byte string (R183). -/
def leWord (bs : List Byte) (j : Nat) : Word := BitVec.ofNat 32 (leInt ((bs.drop (4 * j)).take 4))

/-- The state of R183 before the rounds. -/
def chachaInit (k : Key) (n : Nonce) (ctr : Word) : Vector Word 16 :=
  Vector.ofFn fun i =>
    if h : i.val < 4 then chachaConst[i.val]
    else if i.val < 12 then leWord k.toList (i.val - 4)
    else if i.val = 12 then ctr
    else leWord n.toList (i.val - 13)

/-- The default KSBlock (R183). -/
def chachaBlock (k : Key) (n : Nonce) (ctr : Word) : KsBlock :=
  let s := chachaInit k n ctr
  let w := doubleRounds 10 s
  Vector.ofFn fun i =>
    wordByte (w[i.val / 4]'(by omega) + s[i.val / 4]'(by omega)) (i.val % 4)

/-- p of R185. -/
def polyPrime : Nat := 2 ^ 130 - 5

/-- r of R185: the low half of the key, clamped. -/
def polyR (k : Key) : Nat := leInt (k.toList.take 16) &&& 0x0ffffffc0ffffffc0ffffffc0fffffff

/-- s of R185: the high half of the key. -/
def polyS (k : Key) : Nat := leInt (k.toList.drop 16)

/-- The accumulator of R185 after the message `m`, at most `fuel` chunks of it. -/
def polyAcc (r : Nat) : Nat → Nat → List Byte → Nat
  | 0, acc, _ => acc
  | _, acc, [] => acc
  | fuel + 1, acc, b :: m =>
    let chunk := (b :: m).take 16
    polyAcc r fuel (((acc + leInt (chunk ++ [1])) * r) % polyPrime) ((b :: m).drop 16)

/-- The default MacTag (R185). -/
def poly1305 (k : Key) (m : List Byte) : Tag :=
  let n := (polyAcc (polyR k) m.length 0 m + polyS k) % 2 ^ 128
  Vector.ofFn fun i => BitVec.ofNat 8 (n >>> (8 * i.val))

/-- KSBlock (R180) of the platform's keystream collaborator. -/
def ksBlock (p : Platform) (k : Key) (n : Nonce) (ctr : Word) : KsBlock :=
  match p.cipher with
  | .rfc8439 => chachaBlock k n ctr
  | .other c => Config.ksBlock c k n ctr

/-- KS_INIT_OK (R180); the default refuses nothing of its own (R182). -/
def ksInitOk (p : Platform) (k : Key) (n : Nonce) : Bool :=
  !p.refuses.contains (k, n) &&
    match p.cipher with
    | .rfc8439 => true
    | .other c => Config.ksInitOk c k n

/-- MacTag (R181) of the platform's MAC collaborator. -/
def macTag (p : Platform) (k : Key) (m : List Byte) : Tag :=
  match p.mac with
  | .rfc8439 => poly1305 k m
  | .other c => Config.macTag c k m

end Sys2Proof.Machine
end

