-- ==== Sys2Proof/Machine/TagStage.lean ====
section
/-! DEFINITION. The tag-compute/verify comparator (R140 to R148). -/

namespace Sys2Proof.Machine

/-- TAG-COMPUTE (R140), then on to `next`. No memory access. -/
def State.tagCompute (s : State) (next : Pos) : State :=
  { s with
    hid := { s.hid with etag := macTag s.plat s.hid.otk s.hid.macbuf, pos := next } }

/-- TAG-APPEND: the write of tag byte `i` (R141). -/
def State.tagWrite (s : State) (i : Fin 16) : Out :=
  s.busWrite (s.outa + s.plen + i.val) s.hid.etag[i] fun t => t.goto (.tagWrite (i.val + 1))

/-- TAG-EXTRACT: the read of claimed-tag byte `i` (R142). -/
def State.tagRead (s : State) (i : Fin 16) : Out :=
  s.busRead (s.ina + s.clen + i.val) fun b =>
    { s with hid := { s.hid with ctag := s.hid.ctag.set i b, pos := .tagRead (i.val + 1) } }

/-- DIFF of two tags: the OR of all 16 byte differences (R143). -/
def tagDiff (expected claimed : Tag) : Byte :=
  (List.finRange 16).foldl (fun d i => d ||| (expected[i] ^^^ claimed[i])) 0

/-- TAG-COMPARE (R143). No memory access. -/
def State.tagCompare (s : State) : State :=
  { s with hid := { s.hid with diff := tagDiff s.hid.etag s.hid.ctag, pos := .tagVerdict } }

/-- The use of the verdict (R144): the transform when valid, else ZEROFILL. -/
def State.tagVerdict (s : State) : State :=
  if s.hid.diff = 0 then s.goto (.xformRead 0) else s.goto (.zeroFill 0)

/-- ZEROFILL: the write of zero at byte `i` of the window (R145). -/
def State.zeroWrite (s : State) (i : Nat) : Out :=
  s.busWrite (s.outa + i) 0 fun t => t.goto (.zeroFill (i + 1))

end Sys2Proof.Machine
end

