-- ==== Sys2Proof/Machine/KeySchedule.lean ====
section
/-! DEFINITION. The key-schedule unit (R110 to R116). -/

namespace Sys2Proof.Machine

/-- KS(p), keystream byte `p` of a command (R113). -/
def ksByte (p : Platform) (k : Key) (n : Nonce) (pos : Nat) : Byte :=
  (ksBlock p k n (BitVec.ofNat 32 (pos / 64)))[pos % 64]'(Nat.mod_lt pos (by decide))

/-- OTK: the first 32 bytes of block 0 (R111); the other 32 are discarded (R112). -/
def deriveOtk (p : Platform) (k : Key) (n : Nonce) : Key :=
  let b0 := ksBlock p k n 0
  Vector.ofFn fun i => b0[i.val]'(by omega)

/-- The KEYSCHED stage (R110), then on to `next`. No memory access. -/
def State.keySched (s : State) (next : Pos) : State :=
  if ksInitOk s.plat s.keyBytes s.nonceBytes then
    { s with
      hid := { s.hid with
        otk := deriveOtk s.plat s.keyBytes s.nonceBytes
        kspos := 64
        pos := next } }
  else s.raise .construct

end Sys2Proof.Machine
end

