-- ==== Sys2Proof/Machine/Transform.lean ====
section
/-! DEFINITION. The payload transform controller (R120 to R125), with src = INA and dst = OUTA. -/

namespace Sys2Proof.Machine

/-- `b <- MemRead(src + i, 1); y <- b xor KS(KSPOS)` (R120). -/
def State.xformRead (s : State) (i : Nat) : Out :=
  s.busRead (s.ina + i) fun b =>
    s.goto (.xformWrite i (b ^^^ ksByte s.plat s.keyBytes s.nonceBytes s.hid.kspos))

/-- OUTBYTES and KSPOS after byte `i` has been written, on to byte i+1 (R120). -/
def State.xformAdvance (s : State) (i : Nat) (y : Byte) : State :=
  { s with
    hid := { s.hid with
      outBytes := s.hid.outBytes ++ [y]
      kspos := s.hid.kspos + 1
      pos := .xformRead (i + 1) } }

/-- `MemWrite(dst + i, 1, y)` and the advance of OUTBYTES and KSPOS (R120). -/
def State.xformWrite (s : State) (i : Nat) (y : Byte) : Out :=
  s.busWrite (s.outa + i) y fun t => t.xformAdvance i y

end Sys2Proof.Machine
end

