-- ==== Sys2Proof/Machine/Commands.lean ====
section
/-! DEFINITION. The meanings of the three commands (R160 to R164): one step each of the command's rule,
at most one memory access in it (R71), from the position the engine stands at. -/

namespace Sys2Proof.Machine

/-- A step of SEAL (R162): acceptance while idle (R160), then CHECK, KEYSCHED, XFORM, MACBUILD, TAG and
the completion. -/
def execSealCmd (s : State) : Out :=
  match s.hid.pos with
  | .idle => .next (s.issue .sealCmd)
  | .check => .next (s.checkStage s.sealFlaw)
  | .keySched => .next (s.keySched (.xformRead 0))
  | .xformRead i => if i < s.plen then s.xformRead i else .next (s.goto (.macAd 0))
  | .xformWrite i y => s.xformWrite i y
  | .macAd i => if i < s.adl then s.macReadAd i else .next (s.macAssemble s.hid.outBytes)
  | .tagCompute => .next (s.tagCompute (.tagWrite 0))
  | .tagWrite i => if h : i < 16 then s.tagWrite ⟨i, h⟩ else .next (s.finish (s.plen + 16))
  | .macCt _ => .fault .offSequence
  | .tagRead _ => .fault .offSequence
  | .tagCompare => .fault .offSequence
  | .tagVerdict => .fault .offSequence
  | .zeroFill _ => .fault .offSequence

/-- A step of OPEN (R163): acceptance while idle (R160), then CHECK, KEYSCHED, MACBUILD, TAG, and XFORM
with completion OK, or ZEROFILL with completion AUTH_FAIL. -/
def execOpenCmd (s : State) : Out :=
  match s.hid.pos with
  | .idle => .next (s.issue .openCmd)
  | .check => .next (s.checkStage s.openFlaw)
  | .keySched => .next (s.keySched (.macAd 0))
  | .macAd i => if i < s.adl then s.macReadAd i else .next (s.goto (.macCt 0))
  | .macCt i => if i < s.clen then s.macReadCt i else .next (s.macAssemble s.hid.ctBytes)
  | .tagCompute => .next (s.tagCompute (.tagRead 0))
  | .tagRead i => if h : i < 16 then s.tagRead ⟨i, h⟩ else .next (s.goto .tagCompare)
  | .tagCompare => .next s.tagCompare
  | .tagVerdict => .next s.tagVerdict
  | .xformRead i => if i < s.clen then s.xformRead i else .next (s.finish s.clen)
  | .xformWrite i y => s.xformWrite i y
  | .zeroFill i => if i < s.clen then s.zeroWrite i else .next (s.raise .authFail)
  | .tagWrite _ => .fault .offSequence

/-- A step of a reserved command (R164): acceptance while idle (R160), then the completion with BAD_CMD. -/
def execBadCmd (w : Word) (s : State) : Out :=
  match s.hid.pos with
  | .idle => .next (s.issue (.badCmd w))
  | .check => .next (s.raise .badCmd)
  | .keySched => .fault .offSequence
  | .xformRead _ => .fault .offSequence
  | .xformWrite _ _ => .fault .offSequence
  | .macAd _ => .fault .offSequence
  | .macCt _ => .fault .offSequence
  | .tagCompute => .fault .offSequence
  | .tagWrite _ => .fault .offSequence
  | .tagRead _ => .fault .offSequence
  | .tagCompare => .fault .offSequence
  | .tagVerdict => .fault .offSequence
  | .zeroFill _ => .fault .offSequence

end Sys2Proof.Machine
end

