-- ==== Sys2Proof/Machine/Dispatch.lean ====
section
/-! DEFINITION. One arm per command, each one call of its meaning. -/

namespace Sys2Proof.Machine

def exec (i : Instr) (s : State) : Host.Outcome State Fault Refusal :=
  match i with
  | .sealCmd => Sys2Proof.Machine.execSealCmd s
  | .openCmd => Sys2Proof.Machine.execOpenCmd s
  | .badCmd w => Sys2Proof.Machine.execBadCmd w s

end Sys2Proof.Machine
end

