-- ==== Sys2Proof/Machine/Port.lean ====
section
/-! DEFINITION. The register port (R20 to R38): the register map, reads, writes, and the accesses that get
an error response. -/

namespace Sys2Proof.Machine

/-- A register of the map of 10_state.md §2. -/
inductive RegName where
  | id
  | version
  | ctrl
  | cmd
  | status
  | inAddr
  | inLen
  | adAddr
  | adLen
  | outAddr
  | outLen
  | key (j : Fin 8)
  | nonce (j : Fin 3)
  | reserved
  deriving DecidableEq, Repr

/-- The offset of a register; `reserved` stands at its first offset (10_state.md §2). -/
def RegName.offset : RegName → BitVec 8
  | .id => 0x00
  | .version => 0x04
  | .ctrl => 0x08
  | .cmd => 0x0C
  | .status => 0x10
  | .inAddr => 0x14
  | .inLen => 0x18
  | .adAddr => 0x1C
  | .adLen => 0x20
  | .outAddr => 0x24
  | .outLen => 0x28
  | .key j => BitVec.ofNat 8 (0x40 + 4 * j.val)
  | .nonce j => BitVec.ofNat 8 (0x60 + 4 * j.val)
  | .reserved => 0x2C

/-- The register at a 4-byte-aligned offset; none where `off[1:0]` is not zero (R20, R21, R36). -/
def regAt (off : BitVec 8) : Option RegName :=
  if off.toNat % 4 ≠ 0 then none
  else
    let k := off.toNat / 4
    if h : 0x10 ≤ k ∧ k < 0x18 then some (.key ⟨k - 0x10, by omega⟩)
    else if h : 0x18 ≤ k ∧ k < 0x1B then some (.nonce ⟨k - 0x18, by omega⟩)
    else some <|
      match k with
      | 0 => .id
      | 1 => .version
      | 2 => .ctrl
      | 3 => .cmd
      | 4 => .status
      | 5 => .inAddr
      | 6 => .inLen
      | 7 => .adAddr
      | 8 => .adLen
      | 9 => .outAddr
      | 10 => .outLen
      | _ => .reserved

/-- The register an access of a width at an offset reaches; none for the malformed ones (R21). -/
def portReg (off : BitVec 8) (width : Width) : Option RegName :=
  match width with
  | .b32 => regAt off
  | .b8 => none
  | .b16 => none
  | .b64 => none

/-- The value a read of a register returns (R22 to R37). A read changes nothing. -/
def State.regRead (s : State) : RegName → Word
  | .id => Config.idValue
  | .version => Config.versionValue
  | .ctrl => s.regs.ctrlWord
  | .cmd => 0
  | .status => s.regs.statusWord
  | .inAddr => s.regs.inAddr
  | .inLen => s.regs.inLen
  | .adAddr => s.regs.adAddr
  | .adLen => s.regs.adLen
  | .outAddr => s.regs.outAddr
  | .outLen => s.regs.outLen
  | .key _ => 0
  | .nonce j => s.regs.nonce[j]
  | .reserved => 0

/-- A write of an operand, key or nonce register: ignored with IGN while busy (R38). -/
def State.guarded (s : State) (f : Regs → Regs) : State :=
  if s.regs.busy then s.ignore else { s with regs := f s.regs }

/-- A write to CTRL (R24): the soft reset of R241 when bit 1 is set, else IE. -/
def State.ctrlWrite (s : State) (v : Word) : State :=
  if v[1] then s.resetEngine
  else { s with regs := { s.regs with ie := v[0] } }

/-- A write of `v` to a register, the reset input being released (R22 to R38). -/
def State.regWriteLive (s : State) (r : RegName) (v : Word) : State :=
  match r with
  | .id => s
  | .version => s
  | .ctrl => s.ctrlWrite v
  | .cmd => s.cmdWrite v
  | .status => { s with regs := s.regs.statusWrite v }
  | .inAddr => s.guarded fun g => { g with inAddr := v }
  | .inLen => s.guarded fun g => { g with inLen := v }
  | .adAddr => s.guarded fun g => { g with adAddr := v }
  | .adLen => s.guarded fun g => { g with adLen := v }
  | .outAddr => s.guarded fun g => { g with outAddr := v }
  | .outLen => s
  | .key j => s.guarded fun g => { g with key := g.key.set j v }
  | .nonce j => s.guarded fun g => { g with nonce := g.nonce.set j v }
  | .reserved => s

/-- A write of `v` to a register; while reset is held the engine stays in the reset state (R240; DEDUCED, log 7). -/
def State.regWrite (s : State) (r : RegName) (v : Word) : State :=
  if s.resetIn then s else s.regWriteLive r v

/-- Record a malformed access: the error response `r` to the host, no engine state touched (R21; DEDUCED,
log 5). -/
def State.portError (s : State) (r : Reply) : State :=
  { s with accessFault := true, replies := r :: s.replies }

/-- The value a malformed read returns (R21). -/
def malformedValue : Word := 0

/-- A host write to the register window (R20, R21). -/
def State.portWrite (s : State) (off : BitVec 8) (width : Width) (v : Word) : State :=
  match portReg off width with
  | some r => s.regWrite r v
  | none => s.portError .error

/-- A host read of the register window, its answer put before the earlier ones (R20, R21). -/
def State.portRead (s : State) (off : BitVec 8) (width : Width) : State :=
  match portReg off width with
  | some r => { s with replies := .word (s.regRead r) :: s.replies }
  | none => s.portError (.readError malformedValue)

end Sys2Proof.Machine
end

