-- ==== Sys2Proof/Machine/HostAgent.lean ====
section
/-! DEFINITION. The host's steps: register accesses, memory statements, polls and cache maintenance
(R6, R74 to R78, R96). -/

namespace Sys2Proof.Machine

/-- A host access to [a, a+n) touches an active region of a busy command (R75). -/
def State.races (s : State) (a n : Nat) : Bool :=
  (List.range n).any fun i => s.active (a + i)

/-- The fault of a host memory statement on [a, a+n), if any (R60, R75). -/
def State.hostFault (s : State) (a n : Nat) : Option Fault :=
  if n ≠ 0 ∧ Config.addrSpace < a + n then some .hostNoSuchAddress
  else if s.races a n then some .hostRace
  else none

/-- The host's cache after it has read or written byte `v` at `a`: it may keep a copy only when the
platform is not coherent (R78). -/
def State.cacheFill (s : State) (a : Nat) (v : Byte) : State :=
  if s.plat.coherent then s else { s with cache := putCell a v s.cache }

/-- The byte a host read of `a` returns, and the state after: memory's, or, of a byte the cache holds on a
platform that is not coherent, either copy, by a free value (R78, U12). A byte of the register window is
a malformed access and reads 0 (R21). A byte of a device region is read as ordinary memory, with no side
effect: the spec says nothing of it (R67; DESIGN CHOICE, log 15). -/
def State.hostReadByte (s : State) (a : Nat) : Byte × State :=
  if inCsrWindow s.plat a then (0, { s with accessFault := true })
  else
    match s.plat.coherent, findCell a s.cache with
    | false, some stale =>
      let v := if Config.staleRead s.draws then stale else s.mem.read a
      (v, { s with draws := s.draws + 1 }.cacheFill a v)
    | _, _ => (s.mem.read a, s.cacheFill a (s.mem.read a))

/-- The host reads `n` bytes from `a` up. -/
def State.hostReadSeq (s : State) (a : Nat) : Nat → List Byte × State
  | 0 => ([], s)
  | n + 1 =>
    let r := s.hostReadByte a
    let rs := r.2.hostReadSeq (a + 1) n
    (r.1 :: rs.1, rs.2)

/-- The host writes byte `v` at `a`; in the register window that is a malformed access (R21). A byte of a
device region is written as ordinary memory (R67; DESIGN CHOICE, log 15). -/
def State.hostWriteByte (s : State) (a : Nat) (v : Byte) : State :=
  if inCsrWindow s.plat a then { s with accessFault := true }
  else { s with mem := s.mem.write a v }.cacheFill a v

/-- The host writes bytes from `a` up (R96). -/
def State.hostWriteSeq (s : State) (a : Nat) : List Byte → State
  | [] => s
  | b :: bs => (s.hostWriteByte a b).hostWriteSeq (a + 1) bs

/-- `mem a := B` (R96). -/
def State.hostMemWrite (s : State) (a : Nat) (bs : List Byte) : Out :=
  match s.hostFault a bs.length with
  | some f => .fault f
  | none => .next (s.hostWriteSeq a bs)

/-- `mem a ? n -> x` (R96). -/
def State.hostMemRead (s : State) (a n : Nat) : Out :=
  match s.hostFault a n with
  | some f => .fault f
  | none =>
    let r := s.hostReadSeq a n
    .next { r.2 with replies := .bytes r.1 :: r.2.replies }

/-- The value one read of a poll returns: the register's, or 0 of a malformed access (R21, R96). -/
def State.pollValue (s : State) (off : BitVec 8) : Word :=
  match portReg off .b32 with
  | some r => s.regRead r
  | none => malformedValue

/-- One statement of the host, already taken off the script; `stay` is the state in which it is still
there, for a poll that has not matched (R96). -/
def State.hostStmt (s stay : State) : HostStmt → Out
  | .wr off width v => .next (s.portWrite off width v)
  | .rd off width => .next (s.portRead off width)
  | .poll off mask v =>
    if s.pollValue off &&& mask = v then .next (s.portRead off .b32)
    else if (portReg off .b32).isSome then .next stay
    else .next { stay with accessFault := true }
  | .memWrite a bs => s.hostMemWrite a bs
  | .memRead a n => s.hostMemRead a n
  | .invalidate a n => .next { s with cache := s.cache.filter fun c => !inRegion a n c.1 }

/-- A step of the host: its next statement; nothing when it has none. -/
def State.hostStep (s : State) : Out :=
  match s.script with
  | [] => .next s
  | st :: rest => { s with script := rest }.hostStmt s st

end Sys2Proof.Machine
end

