-- ==== Sys2Proof/Machine/Schedule.lean ====
section
/-! DEFINITION. Who moves: the engine's next step of its command, the host's next statement, or the
platform's reset input (R6, R71, R160, R161, R240). -/

namespace Sys2Proof.Machine

/-- A step of the engine: one step of the command it runs; nothing while it has none (R243). -/
def State.engineStep (s : State) : Out :=
  match s.hid.op with
  | some i => exec i s
  | none => .next s

/-- The move of an agent. -/
def State.move (s : State) : Turn → Out
  | .engine => s.engineStep
  | .host => s.hostStep
  | .assertReset => .next { s.resetEngine with resetIn := true }
  | .releaseReset => .next { s with resetIn := false }

/-- Who moves when `turns` is empty: the engine while a command is busy, else the host (R161). -/
def State.defaultTurn (s : State) : Turn := if s.regs.busy then .engine else .host

/-- One step of the machine. -/
def State.advance (s : State) : Out :=
  match s.turns with
  | [] => s.move s.defaultTurn
  | t :: ts => { s with turns := ts }.move t

end Sys2Proof.Machine
end

