-- ==== Sys2Proof/Machine/Step.lean ====
section
/-! DEFINITION. The step, and the placing of a command where the next step runs it. -/

namespace Sys2Proof.Machine

/-- One step of one agent (R71). -/
def step (s : State) : Host.Outcome State Fault Refusal := s.advance

/-- `s` with the command word `w` accepted and the engine to move next (DESIGN CHOICE, log 1). -/
def State.withFetchWord (s : State) (nbits w : Nat) : State :=
  match decodeTableWord nbits w with
  | some i => s.placeCommand i
  | none => s

end Sys2Proof.Machine
end

