-- ==== Sys2Proof/Machine/HostScript.lean ====
section
/-! DEFINITION. The host-script pseudo-instructions and their expansions (R97), and the source's software
calls over them (R98). -/

namespace Sys2Proof.Machine

/-- `wr32 R, v` (R96). -/
def wr32 (r : RegName) (v : Word) : HostStmt := .wr r.offset .b32 v

/-- `rd32 R -> x` (R96). -/
def rd32 (r : RegName) : HostStmt := .rd r.offset .b32

/-- `setkey K` (R97). -/
def scriptSetKey (k : Key) : List HostStmt :=
  (List.finRange 8).map fun j =>
    wr32 (.key j) (packWord (k[4 * j.val]'(by omega)) (k[4 * j.val + 1]'(by omega))
      (k[4 * j.val + 2]'(by omega)) (k[4 * j.val + 3]'(by omega)))

/-- `setnonce N` (R97). -/
def scriptSetNonce (n : Nonce) : List HostStmt :=
  (List.finRange 3).map fun j =>
    wr32 (.nonce j) (packWord (n[4 * j.val]'(by omega)) (n[4 * j.val + 1]'(by omega))
      (n[4 * j.val + 2]'(by omega)) (n[4 * j.val + 3]'(by omega)))

/-- The five operand writes of `seal` and `open` (R97). -/
def scriptOperands (input inlen ad adlen out : Word) : List HostStmt :=
  [wr32 .inAddr input, wr32 .inLen inlen, wr32 .adAddr ad, wr32 .adLen adlen, wr32 .outAddr out]

/-- `seal in, inlen, ad, adlen, out` (R97). -/
def scriptSeal (input inlen ad adlen out : Word) : List HostStmt :=
  scriptOperands input inlen ad adlen out ++ [wr32 .cmd 0x1]

/-- `open in, inlen, ad, adlen, out` (R97). -/
def scriptOpen (input inlen ad adlen out : Word) : List HostStmt :=
  scriptOperands input inlen ad adlen out ++ [wr32 .cmd 0x2]

/-- `wait` (R97). -/
def scriptWait : List HostStmt := [.poll RegName.status.offset 0x3 0x2]

/-- `result -> r, n` (R97): the reads of STATUS and OUT_LEN. -/
def scriptResult : List HostStmt := [rd32 .status, rd32 .outLen]

/-- `ack` (R97). -/
def scriptAck : List HostStmt := [wr32 .status 0x2]

/-- `srst` (R97). -/
def scriptSoftReset : List HostStmt := [wr32 .ctrl 0x2]

/-- The source's `Seal` call (R98). -/
def scriptSealCall (n : Nonce) (input inlen ad adlen out : Word) : List HostStmt :=
  scriptSetNonce n ++ scriptSeal input inlen ad adlen out ++ scriptWait

/-- The source's `Open` call (R98). -/
def scriptOpenCall (n : Nonce) (input inlen ad adlen out : Word) : List HostStmt :=
  scriptSetNonce n ++ scriptOpen input inlen ad adlen out ++ scriptWait

end Sys2Proof.Machine
end

