-- ==== Sys2Proof/Safety.lean ====
section
/-! DEFINITION. The terms claims are stated in: the access a step makes, the invariants of the machine,
runs and their accesses, and the results R162 and R163 give a command as functions of the state it was
accepted in. -/

namespace Sys2Proof.Machine

/-- The memory access the next step of SEAL tries to make (R72), if it makes one. -/
def State.sealAccess (s : State) : Option (AccessKind × Nat) :=
  match s.hid.pos with
  | .xformRead j => if j < s.plen then some (.read, s.ina + j) else none
  | .xformWrite j _ => some (.write, s.outa + j)
  | .macAd j => if j < s.adl then some (.read, s.ada + j) else none
  | .tagWrite j => if j < 16 then some (.write, s.outa + s.plen + j) else none
  | .idle => none
  | .check => none
  | .keySched => none
  | .macCt _ => none
  | .tagCompute => none
  | .tagRead _ => none
  | .tagCompare => none
  | .tagVerdict => none
  | .zeroFill _ => none

/-- The memory access the next step of OPEN tries to make (R72), if it makes one. -/
def State.openAccess (s : State) : Option (AccessKind × Nat) :=
  match s.hid.pos with
  | .macAd j => if j < s.adl then some (.read, s.ada + j) else none
  | .macCt j => if j < s.clen then some (.read, s.ina + j) else none
  | .tagRead j => if j < 16 then some (.read, s.ina + s.clen + j) else none
  | .xformRead j => if j < s.clen then some (.read, s.ina + j) else none
  | .xformWrite j _ => some (.write, s.outa + j)
  | .zeroFill j => if j < s.clen then some (.write, s.outa + j) else none
  | .idle => none
  | .check => none
  | .keySched => none
  | .tagCompute => none
  | .tagWrite _ => none
  | .tagCompare => none
  | .tagVerdict => none

/-- The memory access the next step of command `i` tries to make (R72), if it makes one; a reserved command
makes none (R164). -/
def State.nextAccess (s : State) (i : Instr) : Option (AccessKind × Nat) :=
  match i with
  | .sealCmd => s.sealAccess
  | .openCmd => s.openAccess
  | .badCmd _ => none

/-- The address the next step of command `i` stores to, if it stores. -/
def State.storeAddr (s : State) (i : Instr) : Option Nat :=
  match s.nextAccess i with
  | some (.write, x) => some x
  | some (.read, _) => none
  | none => none

/-- The rule of command `i` has the position (R162, R163, R164). -/
def Pos.fits (i : Instr) (p : Pos) : Bool :=
  match i, p with
  | _, .idle => false
  | _, .check => true
  | .badCmd _, _ => false
  | .sealCmd, .macCt _ => false
  | .sealCmd, .tagRead _ => false
  | .sealCmd, .tagCompare => false
  | .sealCmd, .tagVerdict => false
  | .sealCmd, .zeroFill _ => false
  | .openCmd, .tagWrite _ => false
  | _, _ => true

/-- The order of the phases in the rule of command `i` (R40: it advances only forward); IDLE comes last,
as the completion. -/
def phaseRank (i : Instr) (p : Phase) : Nat :=
  match i, p with
  | _, .check => 0
  | _, .keySched => 1
  | .openCmd, .macBuild => 2
  | .openCmd, .tag => 3
  | .openCmd, .xform => 4
  | _, .xform => 2
  | _, .macBuild => 3
  | _, .tag => 4
  | _, .zeroFill => 4
  | _, .idle => 5

/-- R46: an engine that is not busy holds nothing of a command. -/
abbrev State.Quiet (s : State) : Prop := s.regs.busy = false → s.hid = Hidden.zero

/-- What the hidden state names of a busy engine: a command that a word decodes to, at a position of its rule. -/
def Hidden.running (h : Hidden) : Bool :=
  match h.op with
  | some i => i.wf && h.pos.fits i
  | none => false

/-- R26, R35, R45: a busy engine shows no result and runs a command at a position of its rule. -/
abbrev State.BusyForm (s : State) : Prop :=
  s.regs.busy = true →
    s.regs.done = false ∧ s.regs.fatal = false ∧ s.regs.result = .ok ∧ s.regs.outLen = 0 ∧
      s.hid.running = true

/-- R201: FATAL is set exactly when the last result is in the fatal class. -/
abbrev State.FatalForm (s : State) : Prop := s.regs.fatal = s.regs.result.isFatal

/-- R35: OUT_LEN is 0 unless the last result is OK. -/
abbrev State.LenForm (s : State) : Prop := s.regs.result ≠ .ok → s.regs.outLen = 0

/-- R240: while reset is held the engine is in the reset state. -/
abbrev State.HeldForm (s : State) : Prop :=
  s.resetIn = true → s.regs = Regs.reset ∧ s.hid = Hidden.zero

/-- The control invariant. -/
abbrev State.Inv (s : State) : Prop :=
  s.Quiet ∧ s.BusyForm ∧ s.FatalForm ∧ s.LenForm ∧ s.HeldForm

/-- The payload length of the running command: PLEN of SEAL, CLEN of OPEN (R17). -/
def State.payLen (s : State) : Nat :=
  match s.hid.op with
  | some .sealCmd => s.plen
  | some .openCmd => s.clen
  | some (.badCmd _) => 0
  | none => 0

/-- What CHECK finds wrong with the running command. -/
def State.flaw (s : State) : Option Result :=
  match s.hid.op with
  | some .sealCmd => s.sealFlaw
  | some .openCmd => s.openFlaw
  | some (.badCmd _) => some .badCmd
  | none => none

/-- The hidden state of a command just accepted, at position `p`. -/
def Hidden.fresh (op : Option Instr) (p : Pos) : Hidden := { Hidden.zero with op := op, pos := p }

/-- Past the key schedule: the checks passed, and OTK is the derived one (R110, R111). -/
abbrev State.Keyed (s : State) : Prop :=
  s.flaw = none ∧ ksInitOk s.plat s.keyBytes s.nonceBytes = true ∧
    s.hid.otk = deriveOtk s.plat s.keyBytes s.nonceBytes

/-- OPEN has found the tag valid (R143, R144). -/
abbrev State.Verified (s : State) : Prop :=
  s.hid.diff = 0 ∧ s.hid.diff = tagDiff s.hid.etag s.hid.ctag ∧
    s.hid.etag = macTag s.plat s.hid.otk s.hid.macbuf ∧
    s.hid.macbuf = macInput s.hid.adBytes s.hid.ctBytes

/-- In the transform of OPEN the tag has been found valid; the transform of SEAL needs nothing. -/
abbrev State.XformAllowed (s : State) : Prop := s.hid.op = some .openCmd → s.Verified

/-- C of the MAC input of the running command (R130). -/
def State.macPayload (s : State) : List Byte :=
  match s.hid.op with
  | some .sealCmd => s.hid.outBytes
  | some .openCmd => s.hid.ctBytes
  | some (.badCmd _) => []
  | none => []

/-- Where the keystream stands before the TAG and MACBUILD stages: SEAL has consumed its payload's,
OPEN none (R125). -/
abbrev State.KsDone (s : State) : Prop :=
  (s.hid.op = some .sealCmd → s.hid.kspos = 64 + s.plen ∧ s.hid.outBytes.length = s.plen) ∧
    (s.hid.op = some .openCmd → s.hid.kspos = 64 ∧ s.hid.outBytes = [])

/-- The MAC input stands assembled (R131). -/
abbrev State.Assembled (s : State) : Prop :=
  s.KsDone ∧ s.hid.adBytes.length = s.adl ∧ s.macPayload.length = s.payLen ∧
    s.hid.macbuf = macInput s.hid.adBytes s.macPayload

/-- The expected tag stands computed (R140). -/
abbrev State.Tagged (s : State) : Prop :=
  s.Assembled ∧ s.hid.etag = macTag s.plat s.hid.otk s.hid.macbuf

/-- What the hidden data are at each position of a command (R110, R120, R125, R130, R140 to R145). -/
def State.StageData (s : State) : Prop :=
  match s.hid.pos with
  | .idle => True
  | .check => s.hid = Hidden.fresh s.hid.op .check
  | .keySched => s.hid = Hidden.fresh s.hid.op .keySched ∧ s.flaw = none
  | .xformRead i =>
    s.Keyed ∧ s.XformAllowed ∧ s.hid.kspos = 64 + i ∧ s.hid.outBytes.length = i ∧ i ≤ s.payLen ∧
      (s.hid.op = some .sealCmd → s.hid.adBytes = [] ∧ s.hid.ctBytes = [])
  | .xformWrite i _ =>
    s.Keyed ∧ s.XformAllowed ∧ s.hid.kspos = 64 + i ∧ s.hid.outBytes.length = i ∧ i < s.payLen ∧
      (s.hid.op = some .sealCmd → s.hid.adBytes = [] ∧ s.hid.ctBytes = [])
  | .macAd i =>
    s.Keyed ∧ s.KsDone ∧ s.hid.adBytes.length = i ∧ i ≤ s.adl ∧ s.hid.ctBytes = []
  | .macCt i =>
    s.Keyed ∧ s.KsDone ∧ s.hid.adBytes.length = s.adl ∧ s.hid.ctBytes.length = i ∧ i ≤ s.payLen
  | .tagCompute => s.Keyed ∧ s.Assembled
  | .tagWrite i => s.Keyed ∧ s.Tagged ∧ i ≤ 16
  | .tagRead i => s.Keyed ∧ s.Tagged ∧ i ≤ 16
  | .tagCompare => s.Keyed ∧ s.Tagged
  | .tagVerdict => s.Keyed ∧ s.Tagged ∧ s.hid.diff = tagDiff s.hid.etag s.hid.ctag
  | .zeroFill i => s.Keyed ∧ s.hid.diff ≠ 0 ∧ i ≤ s.payLen

/-- The next step of the machine is the engine's (log 2). -/
def State.engineNext (s : State) : Bool :=
  match s.turns with
  | [] => s.regs.busy
  | .engine :: _ => true
  | .host :: _ => false
  | .assertReset :: _ => false
  | .releaseReset :: _ => false

/-- The next step of the machine is the engine's and makes a memory access. -/
def State.accessNow (s : State) : Bool :=
  s.engineNext &&
    match s.hid.op with
    | some i => (s.nextAccess i).isSome
    | none => false

/-- How many of the next `n` steps are engine steps that try a memory access. -/
def accesses : Nat → State → Nat
  | 0, _ => 0
  | n + 1, s =>
    (if s.accessNow then 1 else 0) +
      match step s with
      | .next t => accesses n t
      | .fault _ => 0
      | .refused _ => 0

/-- The statement is a host write that performs the soft reset (R241). -/
def HostStmt.softResets : HostStmt → Bool
  | .wr off width v => portReg off width == some .ctrl && v[1]
  | .rd _ _ => false
  | .poll _ _ _ => false
  | .memWrite _ _ => false
  | .memRead _ _ => false
  | .invalidate _ _ => false

/-- `i` has just been accepted and the engine runs it without the host or the platform moving (R160). -/
abbrev State.Accepted (s : State) (i : Instr) : Prop :=
  s.regs.busy = true ∧ s.regs.fatal = false ∧ s.hid = Hidden.fresh (some i) .check ∧ s.turns = []

/-- The engine can read each of the `n` bytes from `a` up. -/
abbrev State.CanRead (s : State) (a n : Nat) : Prop :=
  ∀ j < n, memOk s.plat .read (a + j) = true ∧ isDevice s.plat (a + j) = false

/-- The engine can write each of the `n` bytes from `a` up. -/
abbrev State.CanWrite (s : State) (a n : Nat) : Prop :=
  ∀ j < n, memOk s.plat .write (a + j) = true ∧ isDevice s.plat (a + j) = false

/-- `n` keystream bytes from position 64 up (R113). -/
def State.payKeystream (s : State) (n : Nat) : List Byte :=
  (List.range n).map fun j => ksByte s.plat s.keyBytes s.nonceBytes (64 + j)

/-- The byte-wise exclusive OR of R12. -/
def xorBytes (a b : List Byte) : List Byte := List.zipWith (· ^^^ ·) a b

/-- The one-time key of a command accepted in `s` (R111). -/
def State.otkOf (s : State) : Key := deriveOtk s.plat s.keyBytes s.nonceBytes

/-- C of a SEAL accepted in `s`: P xor KS(64 .. 64+PLEN) (R162). -/
def State.sealCipher (s : State) : List Byte :=
  xorBytes (s.mem.readSeq s.ina s.plen) (s.payKeystream s.plen)

/-- Memory after the transform of a SEAL accepted in `s`. -/
def State.sealXformMem (s : State) : Memory := s.mem.writeSeq s.outa s.sealCipher

/-- The tag of a SEAL accepted in `s`: over AD as it reads after the transform (R138, R162). -/
def State.sealTag (s : State) : Tag :=
  macTag s.plat s.otkOf (macInput (s.sealXformMem.readSeq s.ada s.adl) s.sealCipher)

/-- Memory after a SEAL accepted in `s` (R162). -/
def State.sealMem (s : State) : Memory :=
  s.sealXformMem.writeSeq (s.outa + s.plen) s.sealTag.toList

/-- The tag an OPEN accepted in `s` expects (R163). -/
def State.openTag (s : State) : Tag :=
  macTag s.plat s.otkOf (macInput (s.mem.readSeq s.ada s.adl) (s.mem.readSeq s.ina s.clen))

/-- The claimed tag of an OPEN accepted in `s` (R142). -/
def State.claimedTag (s : State) : List Byte := s.mem.readSeq (s.ina + s.clen) 16

/-- P of an OPEN accepted in `s`: C xor KS(64 .. 64+CLEN) (R163). -/
def State.openPlain (s : State) : List Byte :=
  xorBytes (s.mem.readSeq s.ina s.clen) (s.payKeystream s.clen)

/-- The state a command accepted in `s` ends in, given its result and what it left in memory (R210). -/
def State.ended (s : State) (m : Memory) (r : Result) (outlen : Nat) : State :=
  { s with
    mem := m
    hid := Hidden.zero
    regs := { s.regs with
      busy := false
      done := true
      result := r
      outLen := BitVec.ofNat 32 outlen
      fatal := r.isFatal } }

/-- The engine can make every access a SEAL of `s` makes (R72). -/
abbrev State.SealReach (s : State) : Prop :=
  s.CanRead s.ina s.plen ∧ s.CanRead s.ada s.adl ∧ s.CanWrite s.outa (s.plen + 16)

/-- The engine can make every access an OPEN of `s` makes (R72). -/
abbrev State.OpenReach (s : State) : Prop :=
  s.CanRead s.ina s.inl ∧ s.CanRead s.ada s.adl ∧ s.CanWrite s.outa s.clen

/-- R165: no command is running, and the host has made no malformed access (U10: such a run is not final). -/
abbrev State.Final (s : State) : Prop := s.regs.busy = false ∧ s.accessFault = false

end Sys2Proof.Machine
end

