-- ==== Sys2Proof/Certificates/Slice0/Obligations.lean ====
section
/-! DEFINITION. The statements about the machine, each with the rule of spec/ it formalises. -/

open Sys2Proof Sys2Proof.Machine

/-! ## Encoding -/

/-- The command words of R92 and the reserved examples of R164 decode as the spec says. -/
def Obligations.DecodesTheSpecWords : Prop :=
  decode 0x00000001 = .sealCmd ∧ decode 0x00000002 = .openCmd ∧
    decode 0x00000000 = .badCmd 0x00000000 ∧ decode 0x00000003 = .badCmd 0x00000003 ∧
    decode 0x0000000F = .badCmd 0x0000000F ∧ decode 0x00000011 = .badCmd 0x00000011 ∧
    decode 0x80000001 = .badCmd 0x80000001

/-- Decoding is total on every word and reads RSVD = w[31:4] and OP = w[3:0] (R94). -/
def Obligations.DecodeReadsTheFields : Prop :=
  ∀ w : Word,
    decode w =
      if w.toNat / 16 ≠ 0 then .badCmd w
      else if w.toNat % 16 = 1 then .sealCmd
      else if w.toNat % 16 = 2 then .openCmd
      else .badCmd w

/-- Decoding and encoding agree: a well-formed command's word decodes to it, and every word is the word of
its decoding, which is well-formed (R90 to R94). -/
def Obligations.DecodeEncodeAgree : Prop :=
  (∀ i : Instr, i.wf = true → decode (encode i) = i) ∧
    ∀ w : Word, encode (decode w) = w ∧ (decode w).wf = true

/-! ## The step and the commands it runs -/

/-- A step of a busy engine is a step of the command it has accepted, whether the schedule is empty or
names the engine (R71, R160, R161; the schedule is the model's, log 2). -/
def Obligations.StepRunsTheRunningCommand : Prop :=
  ∀ (s : State) (i : Instr), s.regs.busy = true → s.hid.op = some i →
    (s.turns = [] → step s = exec i s) ∧
      ∀ ts : List Turn, s.turns = .engine :: ts → step s = exec i { s with turns := ts }

/-- A host write of `w` to CMD on an idle engine runs the first step of the command `w` decodes to, the
statement being taken off the script (R160, R94). -/
def Obligations.CmdWriteRunsTheDecodedWord : Prop :=
  ∀ (s : State) (w : Word) (rest : List HostStmt),
    s.Inv → s.regs.busy = false → s.resetIn = false → s.turns = [] →
    s.script = .wr 0x0C#8 .b32 w :: rest →
      step s = exec (decode w) { s with script := rest }

/-- The first step of any command on an engine that is neither busy nor fatally locked accepts it: BUSY
rises, DONE, RESULT and OUT_LEN are cleared, OP is the decoded command and the phase is CHECK; nothing
else changes. Under the fatal lock it is ignored and sets IGN (R160, R214). -/
def Obligations.IdleEngineAcceptsOrIgnores : Prop :=
  ∀ (s : State) (i : Instr), s.hid.pos = .idle →
    (s.regs.fatal = false →
      exec i s = .next
        { s with
          regs := { s.regs with busy := true, done := false, result := .ok, outLen := 0 }
          hid := { s.hid with op := some i, pos := .check } }) ∧
    (s.regs.fatal = true → exec i s = .next { s with regs := { s.regs with ign := true } })

/-! ## Registers -/

/-- A write to CMD, an operand register, KEY or NONCE while busy is ignored and sets IGN, and no step of the
command changes an operand; CTRL and STATUS writes are accepted all the same; while the engine is fatally
locked and not busy, the operand, KEY and NONCE writes are accepted and only CMD writes are refused (R38). -/
def Obligations.WritesWhileBusyAreIgnored : Prop :=
  ∀ (s : State) (v : Word), s.resetIn = false →
    (s.regs.busy = true →
      (∀ r : RegName,
        (r = .cmd ∨ r = .inAddr ∨ r = .inLen ∨ r = .adAddr ∨ r = .adLen ∨ r = .outAddr ∨
          (∃ j, r = .key j) ∨ ∃ j, r = .nonce j) →
        s.regWrite r v = { s with regs := { s.regs with ign := true } }) ∧
      ∀ (i : Instr) (t : State), exec i s = .next t →
        t.ina = s.ina ∧ t.inl = s.inl ∧ t.ada = s.ada ∧ t.adl = s.adl ∧ t.outa = s.outa ∧
          t.keyBytes = s.keyBytes ∧ t.nonceBytes = s.nonceBytes) ∧
    (v[1] = false →
      s.regWrite .ctrl v = { s with regs := { s.regs with ie := v[0] } }) ∧
    (v[1] = true →
      s.regWrite .ctrl v = { s with regs := Regs.reset, hid := Hidden.zero }) ∧
    s.regWrite .status v =
      { s with regs := { s.regs with
          done := s.regs.done && !v[1], ign := s.regs.ign && !v[3] } } ∧
    (s.regs.busy = false → s.regs.fatal = true →
      s.regWrite .cmd v = { s with regs := { s.regs with ign := true } } ∧
      (s.regWrite .inAddr v).regs.inAddr = v ∧ (s.regWrite .inLen v).regs.inLen = v ∧
      (s.regWrite .adAddr v).regs.adAddr = v ∧ (s.regWrite .adLen v).regs.adLen = v ∧
      (s.regWrite .outAddr v).regs.outAddr = v ∧
      (∀ j : Fin 8, (s.regWrite (.key j) v).regs.key[j] = v) ∧
      ∀ j : Fin 3, (s.regWrite (.nonce j) v).regs.nonce[j] = v)

/-- A write to an operand, KEY or NONCE register of an engine that is not busy stores the word there and
changes nothing else; and in every state a read of ID, VERSION, an operand register, OUT_LEN or a NONCE
register at its offset returns that register's word and changes nothing (R22, R23, R28 to R35). -/
def Obligations.OperandWritesStoreTheWord : Prop :=
  (∀ (s : State) (v : Word), s.resetIn = false → s.regs.busy = false →
    s.portWrite 0x14#8 .b32 v = { s with regs := { s.regs with inAddr := v } } ∧
    s.portWrite 0x18#8 .b32 v = { s with regs := { s.regs with inLen := v } } ∧
    s.portWrite 0x1C#8 .b32 v = { s with regs := { s.regs with adAddr := v } } ∧
    s.portWrite 0x20#8 .b32 v = { s with regs := { s.regs with adLen := v } } ∧
    s.portWrite 0x24#8 .b32 v = { s with regs := { s.regs with outAddr := v } } ∧
    (∀ j : Fin 8, s.portWrite (BitVec.ofNat 8 (0x40 + 4 * j.val)) .b32 v =
      { s with regs := { s.regs with key := s.regs.key.set j v } }) ∧
    ∀ j : Fin 3, s.portWrite (BitVec.ofNat 8 (0x60 + 4 * j.val)) .b32 v =
      { s with regs := { s.regs with nonce := s.regs.nonce.set j v } }) ∧
  ∀ s : State,
    let answer (w : Word) : State := { s with replies := .word w :: s.replies }
    s.portRead 0x00#8 .b32 = answer 0x0C201305 ∧ s.portRead 0x04#8 .b32 = answer 0x00010000 ∧
    s.portRead 0x14#8 .b32 = answer s.regs.inAddr ∧ s.portRead 0x18#8 .b32 = answer s.regs.inLen ∧
    s.portRead 0x1C#8 .b32 = answer s.regs.adAddr ∧ s.portRead 0x20#8 .b32 = answer s.regs.adLen ∧
    s.portRead 0x24#8 .b32 = answer s.regs.outAddr ∧ s.portRead 0x28#8 .b32 = answer s.regs.outLen ∧
    ∀ j : Fin 3, s.portRead (BitVec.ofNat 8 (0x60 + 4 * j.val)) .b32 = answer s.regs.nonce[j]

/-- CTRL: a write with bit 1 set performs the soft reset and leaves IE at 0, any other write sets IE from
bit 0, busy or locked or not; a read returns IE zero-extended (R24). -/
def Obligations.CtrlWriteEffect : Prop :=
  ∀ (s : State) (v : Word), s.resetIn = false →
    (v[1] = true →
      s.portWrite 0x08#8 .b32 v = { s with regs := Regs.reset, hid := Hidden.zero } ∧
        (s.portWrite 0x08#8 .b32 v).regs.ie = false) ∧
    (v[1] = false →
      s.portWrite 0x08#8 .b32 v = { s with regs := { s.regs with ie := v[0] } }) ∧
    (s.regRead .ctrl).toNat = if s.regs.ie then 1 else 0

/-- STATUS: a write clears DONE where bit 1 is set and IGN where bit 3 is set, busy or not, and changes
nothing else: BUSY, FATAL, RESULT and OUT_LEN cannot be written; clearing DONE drops IRQ (R27). -/
def Obligations.StatusWriteEffect : Prop :=
  ∀ (s : State) (v : Word), s.resetIn = false →
    s.portWrite 0x10#8 .b32 v =
      { s with regs := { s.regs with
          done := if v[1] = true then false else s.regs.done
          ign := if v[3] = true then false else s.regs.ign } } ∧
    (v[1] = true → (s.portWrite 0x10#8 .b32 v).irq = false)

/-- STATUS reads BUSY, DONE, FATAL and IGN in bits 0 to 3, RESULT in bits 11:8 and zero elsewhere (R26). -/
def Obligations.StatusReadLayout : Prop :=
  ∀ s : State,
    (s.regRead .status).toNat =
      s.regs.busy.toNat + 2 * s.regs.done.toNat + 4 * s.regs.fatal.toNat + 8 * s.regs.ign.toNat +
        256 * s.regs.result.code.toNat

/-- A 32-bit aligned read of a reserved offset returns 0, and a write to one changes nothing, IGN
included (R36). -/
def Obligations.ReservedOffsetsReadZero : Prop :=
  ∀ (s : State) (off : BitVec 8) (v : Word), off.toNat % 4 = 0 →
    ((0x2C ≤ off.toNat ∧ off.toNat < 0x40) ∨ 0x6C ≤ off.toNat) →
      s.portRead off .b32 = { s with replies := .word 0 :: s.replies } ∧ s.portWrite off .b32 v = s

/-- Writes to ID, VERSION and OUT_LEN are ignored without IGN, and reads of CMD and KEY0 to KEY7 return 0 (R37). -/
def Obligations.ReadOnlyAndWriteOnly : Prop :=
  ∀ (s : State) (v : Word),
    s.portWrite 0x00#8 .b32 v = s ∧ s.portWrite 0x04#8 .b32 v = s ∧ s.portWrite 0x28#8 .b32 v = s ∧
    s.portRead 0x0C#8 .b32 = { s with replies := .word 0 :: s.replies } ∧
    ∀ j : Fin 8,
      s.portRead (BitVec.ofNat 8 (0x40 + 4 * j.val)) .b32 =
        { s with replies := .word 0 :: s.replies }

/-- Each register stands at its offset of the register map, and only there; a 32-bit access at its offset
reads what the register reads as, changing nothing, or is a write of the register (10_state.md §2, R20). -/
def Obligations.RegisterMapOffsets : Prop :=
  (∀ r : RegName,
    r.offset.toNat =
      match r with
      | .id => 0x00
      | .version => 0x04
      | .ctrl => 0x08
      | .cmd => 0x0C
      | .status => 0x10
      | .inAddr => 0x14
      | .inLen => 0x18
      | .adAddr => 0x1C
      | .adLen => 0x20
      | .outAddr => 0x24
      | .outLen => 0x28
      | .key j => 0x40 + 4 * j.val
      | .nonce j => 0x60 + 4 * j.val
      | .reserved => 0x2C) ∧
  (∀ (off : BitVec 8) (r : RegName), regAt off = some r → r ≠ .reserved → off = r.offset) ∧
  ∀ (s : State) (r : RegName) (v : Word),
    s.portRead r.offset .b32 = { s with replies := .word (s.regRead r) :: s.replies } ∧
      s.portWrite r.offset .b32 v = s.regWrite r v

/-- An access that is not 32-bit wide at a 4-byte-aligned offset touches no engine state and no memory: the
host gets the error response, a read of that kind returns 0, and the access is recorded as the host's fault
(R21; the record is sticky, log 5). -/
def Obligations.MalformedAccessTouchesNothing : Prop :=
  ∀ (s : State) (off : BitVec 8) (width : Width) (v : Word), (width ≠ .b32 ∨ off.toNat % 4 ≠ 0) →
    s.portWrite off width v = { s with accessFault := true, replies := .error :: s.replies } ∧
    s.portRead off width = { s with accessFault := true, replies := .readError 0 :: s.replies }

/-- IRQ is the level IE and DONE: it is up after a completion exactly when IE is set, it follows an IE
write while DONE is set, and it is down after DONE is cleared by a STATUS write, by an accepted command
or by reset (R39). -/
def Obligations.IrqIsTheLevel : Prop :=
  ∀ (s : State) (v : Word) (i : Instr) (r : Result) (n : Nat),
    s.irq = (s.regs.ie && s.regs.done) ∧ (s.complete r n).irq = s.regs.ie ∧
    (v[1] = false → s.regs.done = true → (s.ctrlWrite v).irq = v[0]) ∧
    (v[1] = false → v[0] = false → (s.ctrlWrite v).irq = false) ∧
    (v[1] = true →
      State.irq { s with regs := s.regs.statusWrite v } = false) ∧
    (s.accept i).irq = false ∧ s.resetEngine.irq = false

/-- What the host reads of any register, and IRQ, does not depend on the key or on hidden state (R33, R147). -/
def Obligations.ReadsRevealNoSecret : Prop :=
  ∀ (s t : State) (r : RegName), { t.regs with key := s.regs.key } = s.regs →
    s.regRead r = t.regRead r ∧ s.irq = t.irq

/-! ## The stages of the commands -/

/-- CHECK of SEAL (R150, R152, R153, R154, R162): the length limit and the ranges first, then an inexact
overlap of the window and the plaintext (they share a byte and start at different addresses), else on to
KEYSCHED. -/
def Obligations.SealCheckOutcome : Prop :=
  ∀ s : State, s.hid.pos = .check →
    let bad := s.plen > 2 ^ 32 - 17 ∨ s.ada + s.adl > 2 ^ 32 ∨ s.ina + s.plen > 2 ^ 32 ∨
      s.outa + (s.plen + 16) > 2 ^ 32
    let overlap := s.outa ≠ s.ina ∧
      ∃ x, (s.outa ≤ x ∧ x < s.outa + (s.plen + 16)) ∧ (s.ina ≤ x ∧ x < s.ina + s.plen)
    (bad → exec .sealCmd s = .next (s.ended s.mem .range 0)) ∧
    (¬bad → overlap → exec .sealCmd s = .next (s.ended s.mem .overlap 0)) ∧
    (¬bad → ¬overlap → exec .sealCmd s = .next { s with hid := { s.hid with pos := .keySched } })

/-- CHECK of OPEN (R150, R152, R155, R163, R202): an input shorter than a tag first, which is not fatal,
then the ranges, then an inexact overlap of the window and the ciphertext, else on to KEYSCHED. -/
def Obligations.OpenCheckOutcome : Prop :=
  ∀ s : State, s.hid.pos = .check → s.regs.fatal = false →
    let bad := s.ada + s.adl > 2 ^ 32 ∨ s.ina + s.inl > 2 ^ 32 ∨ s.outa + s.clen > 2 ^ 32
    let overlap := s.outa ≠ s.ina ∧
      ∃ x, (s.outa ≤ x ∧ x < s.outa + s.clen) ∧ (s.ina ≤ x ∧ x < s.ina + s.clen)
    (s.inl < 16 → exec .openCmd s = .next (s.ended s.mem .authFail 0)) ∧
    (16 ≤ s.inl → bad → exec .openCmd s = .next (s.ended s.mem .range 0)) ∧
    (16 ≤ s.inl → ¬bad → overlap → exec .openCmd s = .next (s.ended s.mem .overlap 0)) ∧
    (16 ≤ s.inl → ¬bad → ¬overlap →
      exec .openCmd s = .next { s with hid := { s.hid with pos := .keySched } })

/-- KEYSCHED of both commands (R110, R111, R112): where the collaborator accepts K and N, OTK is keystream
bytes 0 to 31 and KSPOS is 64; where it refuses, the result is CONSTRUCT. -/
def Obligations.KeyScheduleOutcome : Prop :=
  ∀ s : State, s.hid.pos = .keySched →
    (ksInitOk s.plat s.keyBytes s.nonceBytes = true →
      ∃ otk : Key,
        (∀ j : Fin 32, otk[j] = ksByte s.plat s.keyBytes s.nonceBytes j.val) ∧
        exec .sealCmd s =
          .next { s with hid := { s.hid with otk := otk, kspos := 64, pos := .xformRead 0 } } ∧
        exec .openCmd s =
          .next { s with hid := { s.hid with otk := otk, kspos := 64, pos := .macAd 0 } }) ∧
    (ksInitOk s.plat s.keyBytes s.nonceBytes = false →
      exec .sealCmd s = .next (s.ended s.mem .construct 0) ∧
      exec .openCmd s = .next (s.ended s.mem .construct 0))

/-- XFORM of both commands (R120): byte j of the input is read, XORed with the keystream byte at KSPOS and
written to byte j of the window; OUTBYTES and KSPOS advance; nothing else changes. At the end of the
payload SEAL goes on to MACBUILD. -/
def Obligations.TransformSteps : Prop :=
  ∀ s : State, ∀ j : Nat,
    (s.hid.pos = .xformRead j → memOk s.plat .read (s.ina + j) = true →
      isDevice s.plat (s.ina + j) = false →
      let t : State :=
        { s with hid := { s.hid with
            pos := .xformWrite j
              (s.mem.read (s.ina + j) ^^^ ksByte s.plat s.keyBytes s.nonceBytes s.hid.kspos) } }
      (j < s.plen → exec .sealCmd s = .next t) ∧ (j < s.clen → exec .openCmd s = .next t)) ∧
    (∀ y : Byte, s.hid.pos = .xformWrite j y → memOk s.plat .write (s.outa + j) = true →
      isDevice s.plat (s.outa + j) = false →
      let t : State :=
        { s with
          mem := s.mem.write (s.outa + j) y
          hid := { s.hid with
            outBytes := s.hid.outBytes ++ [y], kspos := s.hid.kspos + 1, pos := .xformRead (j + 1) } }
      exec .sealCmd s = .next t ∧ exec .openCmd s = .next t) ∧
    (s.hid.pos = .xformRead j → s.plen ≤ j →
      exec .sealCmd s = .next { s with hid := { s.hid with pos := .macAd 0 } })

/-- MACBUILD (R130, R131): the AD is read in ascending order, then in OPEN the ciphertext; MACBUF becomes
MacInput of the AD bytes read and of OUTBYTES (SEAL) or the ciphertext bytes read (OPEN). -/
def Obligations.MacBuildSteps : Prop :=
  ∀ s : State, ∀ j : Nat,
    (s.hid.pos = .macAd j → j < s.adl → memOk s.plat .read (s.ada + j) = true →
      isDevice s.plat (s.ada + j) = false →
      let t : State :=
        { s with hid := { s.hid with
            adBytes := s.hid.adBytes ++ [s.mem.read (s.ada + j)], pos := .macAd (j + 1) } }
      exec .sealCmd s = .next t ∧ exec .openCmd s = .next t) ∧
    (s.hid.pos = .macAd j → s.adl ≤ j →
      exec .sealCmd s =
        .next { s with hid := { s.hid with
          macbuf := macInput s.hid.adBytes s.hid.outBytes, pos := .tagCompute } } ∧
      exec .openCmd s = .next { s with hid := { s.hid with pos := .macCt 0 } }) ∧
    (s.hid.pos = .macCt j → j < s.clen → memOk s.plat .read (s.ina + j) = true →
      isDevice s.plat (s.ina + j) = false →
      exec .openCmd s =
        .next { s with hid := { s.hid with
          ctBytes := s.hid.ctBytes ++ [s.mem.read (s.ina + j)], pos := .macCt (j + 1) } }) ∧
    (s.hid.pos = .macCt j → s.clen ≤ j →
      exec .openCmd s =
        .next { s with hid := { s.hid with
          macbuf := macInput s.hid.adBytes s.hid.ctBytes, pos := .tagCompute } })

/-- TAG of SEAL (R140, R141): ETAG becomes the MAC tag of MACBUF under OTK, and its byte j is written at
OUTA + PLEN + j, changing nothing else. -/
def Obligations.TagComputeAndAppend : Prop :=
  ∀ s : State,
    (s.hid.pos = .tagCompute →
      exec .sealCmd s =
        .next { s with hid := { s.hid with
          etag := macTag s.plat s.hid.otk s.hid.macbuf, pos := .tagWrite 0 } }) ∧
    ∀ j : Fin 16, s.hid.pos = .tagWrite j.val →
      memOk s.plat .write (s.outa + s.plen + j.val) = true →
      isDevice s.plat (s.outa + s.plen + j.val) = false →
      exec .sealCmd s =
        .next { s with
          mem := s.mem.write (s.outa + s.plen + j.val) s.hid.etag[j]
          hid := { s.hid with pos := .tagWrite (j.val + 1) } }

/-- TAG of OPEN (R140, R142, R143, R144): ETAG is computed, the 16 claimed-tag bytes are read at INA + CLEN,
DIFF becomes the OR of the byte differences, and the verdict leads to the transform when DIFF is 0 and to
ZEROFILL otherwise. -/
def Obligations.TagVerifySteps : Prop :=
  ∀ s : State,
    (s.hid.pos = .tagCompute →
      exec .openCmd s =
        .next { s with hid := { s.hid with
          etag := macTag s.plat s.hid.otk s.hid.macbuf, pos := .tagRead 0 } }) ∧
    (∀ j : Fin 16, s.hid.pos = .tagRead j.val →
      memOk s.plat .read (s.ina + s.clen + j.val) = true →
      isDevice s.plat (s.ina + s.clen + j.val) = false →
      exec .openCmd s =
        .next { s with hid := { s.hid with
          ctag := s.hid.ctag.set j (s.mem.read (s.ina + s.clen + j.val))
          pos := .tagRead (j.val + 1) } }) ∧
    (s.hid.pos = .tagRead 16 →
      exec .openCmd s = .next { s with hid := { s.hid with pos := .tagCompare } }) ∧
    (s.hid.pos = .tagCompare →
      exec .openCmd s =
        .next { s with hid := { s.hid with
          diff := tagDiff s.hid.etag s.hid.ctag, pos := .tagVerdict } }) ∧
    (s.hid.pos = .tagVerdict →
      exec .openCmd s =
        .next { s with hid := { s.hid with
          pos := if s.hid.diff = 0 then .xformRead 0 else .zeroFill 0 } })

/-- The comparator's DIFF is 0 exactly when all 16 bytes agree, so its verdict is `MacTag(k, m) = t`
(R143, R148). -/
def Obligations.TagDiffIsZeroIffEqual : Prop :=
  ∀ (p : Platform) (k : Key) (m : List Byte) (expected claimed : Tag),
    (tagDiff expected claimed = 0 ↔ expected = claimed) ∧
      (tagDiff (macTag p k m) claimed = 0 ↔ macTag p k m = claimed)

/-- ZEROFILL of OPEN (R145): zero is written to byte j of the window, and after its last byte the command
completes with AUTH_FAIL, OUT_LEN 0, FATAL unchanged. -/
def Obligations.ZeroFillSteps : Prop :=
  ∀ (s : State) (j : Nat), s.hid.pos = .zeroFill j →
    (j < s.clen → memOk s.plat .write (s.outa + j) = true → isDevice s.plat (s.outa + j) = false →
      exec .openCmd s =
        .next { s with
          mem := s.mem.write (s.outa + j) 0, hid := { s.hid with pos := .zeroFill (j + 1) } }) ∧
    (s.clen ≤ j →
      exec .openCmd s =
        .next { s with
          hid := Hidden.zero
          regs := { s.regs with
            busy := false, done := true, result := .authFail, outLen := 0 } })

/-- SEAL completes with OK after its last tag byte: STATUS reads 0x002, OUT_LEN is PLEN + 16, the hidden
state is zeroized, memory is as the stages left it, and IRQ is up if IE is set (R162, R210). -/
def Obligations.SealCompletesOk : Prop :=
  ∀ (s : State) (j : Nat), s.hid.pos = .tagWrite j → 16 ≤ j → s.plen ≤ 2 ^ 32 - 17 →
    s.regs.fatal = false → s.regs.ign = false →
      ∃ t : State, exec .sealCmd s = .next t ∧ t.regs.statusWord = 0x002 ∧
        t.regs.outLen.toNat = s.plen + 16 ∧ t.hid = Hidden.zero ∧ t.mem = s.mem ∧
        t.irq = s.regs.ie

/-- OPEN completes with OK after its last plaintext byte: STATUS reads 0x002, OUT_LEN is CLEN, the hidden
state is zeroized, memory is as the stages left it, and IRQ is up if IE is set (R163, R210). -/
def Obligations.OpenCompletesOk : Prop :=
  ∀ (s : State) (j : Nat), s.hid.pos = .xformRead j → s.clen ≤ j →
    s.regs.fatal = false → s.regs.ign = false →
      ∃ t : State, exec .openCmd s = .next t ∧ t.regs.statusWord = 0x002 ∧
        t.regs.outLen.toNat = s.clen ∧ t.hid = Hidden.zero ∧ t.mem = s.mem ∧ t.irq = s.regs.ie

/-- A reserved command completes with BAD_CMD from CHECK: DONE = 1, RESULT = 2, OUT_LEN = 0, FATAL unchanged,
no operand read, memory untouched (R164). -/
def Obligations.BadCmdCompletes : Prop :=
  ∀ (s : State) (w : Word), s.hid.pos = .check →
    exec (.badCmd w) s =
      .next { s with
        hid := Hidden.zero
        regs := { s.regs with busy := false, done := true, result := .badCmd, outLen := 0 } } ∧
    (s.regs.fatal = false → s.regs.ign = false →
      ∃ t : State, exec (.badCmd w) s = .next t ∧ t.regs.statusWord = 0x202)

/-- The STATUS word and OUT_LEN each result leaves, IGN adding 0x8 (R207, R210). -/
def Obligations.CompletionReport : Prop :=
  ∀ (s : State) (r : Result) (n : Nat), s.regs.fatal = false →
    (s.complete r n).regs.statusWord =
      (match r with
        | .ok => 0x002
        | .authFail => 0x102
        | .badCmd => 0x202
        | .overlap => 0x806
        | .range => 0x906
        | .construct => 0xA06
        | .busErr => 0xB06) ||| (if s.regs.ign then 0x8 else 0) ∧
    (s.complete r n).regs.outLen = (if r = .ok then BitVec.ofNat 32 n else 0) ∧
    (s.complete r n).hid = Hidden.zero ∧ (s.complete r n).mem = s.mem

/-- An access for which MEM_OK is false is not performed: the command stops there with BUS_ERR, memory
stays as the earlier accesses left it, and OUT_LEN is 0 (R205). Where MEM_OK holds and the byte is a
device's, the model refuses the step by name (R67, U11, log 10). -/
def Obligations.FailedAccessStopsTheCommand : Prop :=
  ∀ (s : State) (i : Instr) (acc : AccessKind) (x : Nat), s.nextAccess i = some (acc, x) →
    (memOk s.plat acc x = false → exec i s = .next (s.ended s.mem .busErr 0)) ∧
    (memOk s.plat acc x = true → isDevice s.plat x = true → exec i s = .refused .deviceBuffer)

/-- An access that hits the engine's own register window is not routed to the registers: MEM_OK is false
there, and the command ends with BUS_ERR (R69). -/
def Obligations.OwnWindowIsABusError : Prop :=
  ∀ (s : State) (x : Nat), s.plat.csrBase.toNat ≤ x → x < s.plat.csrBase.toNat + 0x100 →
    (∀ acc : AccessKind, memOk s.plat acc x = false) ∧
      ∀ (i : Instr) (acc : AccessKind), s.nextAccess i = some (acc, x) →
        ∃ t : State, exec i s = .next t ∧ t.regs.result = .busErr ∧ t.regs.busy = false ∧
          { t.regs with
            busy := s.regs.busy, done := s.regs.done, fatal := s.regs.fatal,
            result := s.regs.result, outLen := s.regs.outLen } = s.regs

/-! ## Frames -/

/-- What no step of a command changes: the operand and NONCE registers (R38), KEY (R33), IE (R49), the
parameters (R47), and the reset input; IGN changes only where a command is ignored under the fatal lock
(R214). The schedule and the host's fields, which no step of a command changes either, are the model's own
(logs 2, 5, 6, 8). -/
def Obligations.CommandFrame : Prop :=
  ∀ (s t : State) (i : Instr), exec i s = .next t →
    t.regs.inAddr = s.regs.inAddr ∧ t.regs.inLen = s.regs.inLen ∧ t.regs.adAddr = s.regs.adAddr ∧
    t.regs.adLen = s.regs.adLen ∧ t.regs.outAddr = s.regs.outAddr ∧ t.regs.key = s.regs.key ∧
    t.regs.nonce = s.regs.nonce ∧ t.regs.ie = s.regs.ie ∧
    (t.regs.ign = s.regs.ign ∨ (s.hid.pos = .idle ∧ s.regs.fatal = true ∧ t.regs.ign = true)) ∧
    t.plat = s.plat ∧ t.resetIn = s.resetIn ∧ t.turns = s.turns ∧ t.script = s.script ∧
    t.replies = s.replies ∧ t.cache = s.cache ∧ t.draws = s.draws ∧ t.accessFault = s.accessFault

/-- Every byte of memory but the one the step stores to reads as before; a step that stores nothing leaves
memory as it is (R67, R72). The address is the one the command's stage computes from the state. -/
def Obligations.CommandMemoryFrame : Prop :=
  ∀ (s t : State) (i : Instr), exec i s = .next t →
    (∀ a : Nat, s.storeAddr i = some a → ∀ x : Nat, x ≠ a → t.mem.read x = s.mem.read x) ∧
      (s.storeAddr i = none → t.mem = s.mem)

/-- STATUS and OUT_LEN change at acceptance and completion only: a step of a command past acceptance leaves
every register as it is, or is the completion, which leaves the engine idle and zeroized with DONE set and
BUSY clear (R162, R163, R164, R210). -/
def Obligations.StatusChangesOnlyAtTheEnds : Prop :=
  ∀ (s t : State) (i : Instr), s.hid.pos ≠ .idle → exec i s = .next t →
    (t.regs = s.regs ∧ t.hid.op = s.hid.op) ∨
      ∃ (r : Result) (n : Nat), t = s.complete r n ∧ t.regs.busy = false ∧ t.regs.done = true ∧
        t.regs.result = r ∧ t.hid = Hidden.zero

/-- The engine reads and writes only bytes of the command's active regions, and writes only bytes of the
writable window (R74, R158). -/
def Obligations.EngineStaysInItsRegions : Prop :=
  ∀ (s : State) (i : Instr) (acc : AccessKind) (x : Nat),
    s.Inv → s.StageData → s.regs.busy = true → s.hid.op = some i → s.nextAccess i = some (acc, x) →
      s.active x = true ∧ (acc = .write → s.outa ≤ x ∧ x < s.outa + s.owin)

/-! ## Invariants and whole-machine rules -/

/-- The state after reset holds the values of the tables of R240 in every register and hidden item, IRQ
is low, and memory lists nothing (log 4). -/
def Obligations.ResetLeavesTheSpecValues : Prop :=
  (∀ r : RegName,
    State.reset.regRead r =
      match r with
      | .id => 0x0C201305
      | .version => 0x00010000
      | _ => 0) ∧
  State.reset.regs.key = Vector.replicate 8 0 ∧ State.reset.keyBytes = Vector.replicate 32 0 ∧
  State.reset.nonceBytes = Vector.replicate 12 0 ∧
  State.reset.phase = .idle ∧ State.reset.hid.otk = Vector.replicate 32 0 ∧
  State.reset.hid.kspos = 0 ∧ State.reset.hid.macbuf = [] ∧
  State.reset.hid.etag = Vector.replicate 16 0 ∧ State.reset.hid.ctag = Vector.replicate 16 0 ∧
  State.reset.hid.diff = 0 ∧ State.reset.opClass = 0 ∧ State.reset.irq = false ∧
  State.reset.mem.cells = []

/-- The state after reset meets the invariants. -/
def Obligations.ResetMeetsTheInvariants : Prop :=
  State.reset.Inv ∧ State.reset.StageData ∧ State.reset.mem.wf

/-- Whenever BUSY is 0, every hidden item is zero, empty or NONE and the phase is IDLE: every step of the
machine keeps this (R46). -/
def Obligations.IdleEngineHoldsNoSecret : Prop :=
  (∀ s t : State, s.Quiet → step s = .next t → t.Quiet) ∧
    ∀ s : State, s.Quiet → s.regs.busy = false →
      s.hid.otk = Vector.replicate 32 0 ∧ s.hid.kspos = 0 ∧ s.hid.macbuf = [] ∧
      s.hid.etag = Vector.replicate 16 0 ∧ s.hid.ctag = Vector.replicate 16 0 ∧ s.hid.diff = 0 ∧
      s.opClass = 0 ∧ s.phase = .idle

/-- Every step keeps the control invariant: an idle engine holds nothing, a busy one shows no result and runs
a command at a position of its rule, FATAL marks the fatal class, OUT_LEN is 0 unless the result is OK, and
the engine is in the reset state while reset is held (R26, R35, R40, R45, R46, R201, R240). -/
def Obligations.StepKeepsTheControlInvariant : Prop :=
  ∀ s t : State, s.Inv → step s = .next t → t.Inv

/-- Every step keeps what each stage says of the hidden data: OTK is the derived key past the key schedule,
KSPOS is 64 plus the bytes transformed, MACBUF is the MAC input of what was read, ETAG its tag, DIFF the
difference of the tags (R110, R111, R120, R125, R131, R140, R143). -/
def Obligations.StepKeepsTheStageData : Prop :=
  ∀ s t : State, s.Inv → s.StageData → step s = .next t → t.StageData

/-- Every step keeps memory in its canonical form over an unchanged power-up image (R60). -/
def Obligations.StepKeepsTheMemoryForm : Prop :=
  ∀ s t : State, s.mem.wf → step s = .next t → t.mem.wf ∧ t.mem.image = s.mem.image

/-- No step changes a parameter: CSR_BASE, MEM_OK, KSBlock, KS_INIT_OK, MacTag, DMA_COHERENT (R47). -/
def Obligations.ParametersNeverChange : Prop :=
  ∀ s t : State, step s = .next t → t.plat = s.plat

/-- The phase of a command only advances, in the order of its rule, until the completion; and from a state
that meets the control invariant no step leaves a command's sequence (R40). -/
def Obligations.PhaseOnlyAdvances : Prop :=
  (∀ (s t : State) (i : Instr), s.hid.pos.fits i = true → exec i s = .next t →
    phaseRank i s.phase ≤ phaseRank i t.phase) ∧
  ∀ s : State, s.Inv → step s ≠ .fault .offSequence

/-- While FATAL is set no command runs and every CMD write sets IGN; FATAL and RESULT stay until a reset puts
the engine in the reset state (R214). -/
def Obligations.FatalLockHoldsUntilReset : Prop :=
  (∀ s t : State, s.Inv → s.regs.fatal = true → step s = .next t →
    (t.regs = Regs.reset ∧ t.hid = Hidden.zero) ∨
      (t.regs.fatal = true ∧ t.regs.result = s.regs.result ∧ t.regs.busy = false ∧
        t.hid = Hidden.zero)) ∧
    ∀ (s : State) (w : Word), s.resetIn = false → s.regs.fatal = true →
      s.portWrite 0x0C#8 .b32 w = { s with regs := { s.regs with ign := true } }

/-- OPEN writes a transformed byte only after the comparator has found the tag valid: the claimed tag is
the MAC tag, under OTK, of the AD and the ciphertext it read (R122, R144). -/
def Obligations.NoUnverifiedPlaintext : Prop :=
  ∀ (s : State) (j : Nat) (y : Byte),
    s.Inv → s.StageData → s.hid.op = some .openCmd → s.hid.pos = .xformWrite j y →
      s.hid.ctag = macTag s.plat s.hid.otk (macInput s.hid.adBytes s.hid.ctBytes) ∧
        s.hid.otk = deriveOtk s.plat s.keyBytes s.nonceBytes

/-! ## The host and reset -/

/-- A host memory statement that touches an active region of a busy command is the fault HOST_RACE at that
step (R75). R75 asks for a fault that is never cleared; that it stops the run there is the model's choice
(log 14), and so is the schedule that lets the host move (log 2). -/
def Obligations.HostRaceIsAFault : Prop :=
  ∀ (s : State) (ts : List Turn) (rest : List HostStmt) (a n x : Nat) (bs : List Byte),
    s.turns = .host :: ts → s.regs.busy = true → a ≤ x → x < a + n → s.active x = true →
    a + n ≤ 2 ^ 32 →
      (s.script = .memRead a n :: rest → step s = .fault .hostRace) ∧
      (s.script = .memWrite a bs :: rest → bs.length = n → step s = .fault .hostRace)

/-- A host write outside every active region has its ordinary effect on memory and does not touch the engine,
and a read of the same bytes returns them (R60, R76, R96). The model's own: one `mem` statement is one step, and
the schedule lets the host move twice (log 2); on a platform that is not coherent the write reaches memory at
once and the copy the host keeps is the byte it wrote (R78, log 6); and a byte of a device region is written and
read back as ordinary memory, which the spec does not say of it (R67, log 15). -/
def Obligations.HostWriteThenRead : Prop :=
  ∀ (s : State) (rest : List HostStmt) (a : Nat) (bs : List Byte),
    s.turns = [.host, .host] → a + bs.length ≤ 2 ^ 32 →
    (∀ x, a ≤ x → x < a + bs.length → s.active x = false ∧ inCsrWindow s.plat x = false) →
    s.script = .memWrite a bs :: .memRead a bs.length :: rest →
      ∃ t u : State, step s = .next t ∧ step t = .next u ∧ t.mem = s.mem.writeSeq a bs ∧
        t.regs = s.regs ∧ t.hid = s.hid ∧ u.replies = .bytes bs :: s.replies ∧ u.script = rest ∧
        u.mem = t.mem ∧ u.regs = s.regs ∧ u.hid = s.hid

/-- A host read of a byte outside the register window returns memory's byte on a coherent platform; on one that
is not, a byte its cache holds reads as the cached copy or as memory's, and any other as memory's (R78; the free
choice is U12's, in the model's form of log 6). That a byte of a device region reads so too, as ordinary memory,
is the model's choice: the spec does not say what a host reads there (R67, log 15). -/
def Obligations.StaleReadsAreTheOnlyOthers : Prop :=
  ∀ (s : State) (x : Nat), inCsrWindow s.plat x = false →
    (s.plat.coherent = true → s.hostReadByte x = (s.mem.read x, s)) ∧
    (s.plat.coherent = false →
      (findCell x s.cache = none → (s.hostReadByte x).1 = s.mem.read x) ∧
      (∀ b : Byte, findCell x s.cache = some b →
        (s.hostReadByte x).1 = b ∨ (s.hostReadByte x).1 = s.mem.read x) ∧
      (s.hostReadByte x).2.mem = s.mem)

/-- `setkey K` on an idle engine leaves K in the key registers after its eight writes, and `setnonce N` the
nonce after its three, with nothing else changed (R33, R34, R97). -/
def Obligations.KeyAndNonceScripts : Prop :=
  ∀ (s : State) (rest : List HostStmt),
    s.turns = [] → s.resetIn = false → s.regs.busy = false →
    (∀ k : Key, s.script = scriptSetKey k ++ rest →
      ∃ t : State, Host.Core.run Sys2Proof.core 8 s = .next t ∧ t.keyBytes = k ∧
        t = { s with script := rest, regs := { s.regs with key := t.regs.key } }) ∧
    (∀ n : Nonce, s.script = scriptSetNonce n ++ rest →
      ∃ t : State, Host.Core.run Sys2Proof.core 3 s = .next t ∧ t.nonceBytes = n ∧
        t = { s with script := rest, regs := { s.regs with nonce := t.regs.nonce } })

/-- `seal` and `open` write the five operand registers and start their command: after six host steps it
stands accepted with those operands (R97, R160). -/
def Obligations.CommandScripts : Prop :=
  ∀ (s : State) (rest : List HostStmt) (a al d dl o : Word),
    s.turns = [] → s.resetIn = false → s.regs.busy = false → s.regs.fatal = false →
    s.hid = Hidden.zero →
    let t (i : Instr) : State :=
      { s with
        script := rest
        hid := Hidden.fresh (some i) .check
        regs := { s.regs with
          inAddr := a, inLen := al, adAddr := d, adLen := dl, outAddr := o,
          busy := true, done := false, result := .ok, outLen := 0 } }
    (s.script = scriptSeal a al d dl o ++ rest →
      Host.Core.run Sys2Proof.core 6 s = .next (t .sealCmd)) ∧
    (s.script = scriptOpen a al d dl o ++ rest →
      Host.Core.run Sys2Proof.core 6 s = .next (t .openCmd))

/-- The reset input puts the engine in the reset state in one step, whatever it was doing, and leaves
memory alone; while it is held no register write changes anything (log 7); a soft reset has the same effect on
every register and hidden item in every state (R240, R241, R244). -/
def Obligations.ResetInOneStep : Prop :=
  ∀ (s : State) (ts : List Turn),
    (s.turns = .assertReset :: ts →
      step s = .next { s with
        turns := ts, regs := Regs.reset, hid := Hidden.zero, resetIn := true }) ∧
    (s.turns = .releaseReset :: ts → step s = .next { s with turns := ts, resetIn := false }) ∧
    (s.resetIn = true → ∀ (r : RegName) (v : Word), s.regWrite r v = s) ∧
    (s.resetIn = false → ∀ v : Word, v[1] = true →
      s.portWrite 0x08#8 .b32 v = { s with regs := Regs.reset, hid := Hidden.zero })

/-- An engine that has accepted no command makes no move, and the machine right after reset, with a host
that has nothing to do, stays as it is (R243). -/
def Obligations.IdleEngineWaits : Prop :=
  (∀ (s : State) (ts : List Turn), s.turns = .engine :: ts → s.hid = Hidden.zero →
    step s = .next { s with turns := ts }) ∧
  (∀ s : State, s.turns = [] → s.regs.busy = false → s.script = [] → step s = .next s) ∧
  step State.reset = .next State.reset

/-! ## The MAC input -/

/-- The MAC input's layout by byte offset, and its length, a multiple of 16 and at least 16 (R131, R134). -/
def Obligations.MacInputLayout : Prop :=
  ∀ A C : List Byte,
    let m := macInput A C
    let a := roundUp16 A.length
    let c := roundUp16 C.length
    m.length = a + c + 16 ∧ m.length % 16 = 0 ∧ 16 ≤ m.length ∧
    (m.take A.length = A) ∧
    (∀ j, A.length ≤ j → j < a → m[j]? = some 0) ∧
    ((m.drop a).take C.length = C) ∧
    (∀ j, a + C.length ≤ j → j < a + c → m[j]? = some 0) ∧
    (m.drop (a + c)).take 8 = le64 A.length ∧
    m.drop (a + c + 8) = le64 C.length ∧
    (A.length < 2 ^ 64 → leInt (le64 A.length) = A.length)

/-! ## Whole commands -/

/-- SEAL, from its acceptance (R162, R161, R72), under the schedule with no host move (turns = [], log 2): when
the checks pass, the collaborator accepts K and N and every access succeeds, the engine takes
2·PLEN + ADL + 22 steps (as the model cuts them, log 2), of which 2·PLEN + ADL + 16 are memory accesses, and
ends with OK and OUT_LEN = PLEN + 16, the window holding P xor KS(64 ..) and the MAC tag over the AD as it
reads after the transform; nothing else of the machine has changed. -/
def Obligations.SealResult : Prop :=
  ∀ s : State, s.Accepted .sealCmd → s.sealFlaw = none →
    ksInitOk s.plat s.keyBytes s.nonceBytes = true → s.SealReach →
      Host.Core.run Sys2Proof.core (2 * s.plen + s.adl + 22) s =
        .next (s.ended s.sealMem .ok (s.plen + 16)) ∧
      accesses (2 * s.plen + s.adl + 22) s = 2 * s.plen + s.adl + 16

/-- OPEN of a valid tag, from its acceptance (R163, R161, R72), under the schedule with no host move (turns = [],
log 2): it takes ADL + 3·CLEN + 25 steps (as the model cuts them, log 2), ADL + 3·CLEN + 16 of them memory
accesses, and ends with OK and OUT_LEN = CLEN, the window holding C xor KS(64 ..); nothing else of the
machine has changed. -/
def Obligations.OpenValidResult : Prop :=
  ∀ s : State, s.Accepted .openCmd → s.openFlaw = none →
    ksInitOk s.plat s.keyBytes s.nonceBytes = true → s.OpenReach →
    s.claimedTag = s.openTag.toList →
      Host.Core.run Sys2Proof.core (s.adl + 3 * s.clen + 25) s =
        .next (s.ended (s.mem.writeSeq s.outa s.openPlain) .ok s.clen) ∧
      accesses (s.adl + 3 * s.clen + 25) s = s.adl + 3 * s.clen + 16

/-- OPEN of a tag that is not the expected one, from its acceptance (R163, R145, R169), under the schedule with
no host move (turns = [], log 2): it ends with AUTH_FAIL and OUT_LEN = 0 after ADL + 2·CLEN + 25 steps (as
the model cuts them, log 2), ADL + 2·CLEN + 16 of them memory accesses, every byte of the window is zero and
every other byte as it was. -/
def Obligations.OpenInvalidResult : Prop :=
  ∀ s : State, s.Accepted .openCmd → s.openFlaw = none →
    ksInitOk s.plat s.keyBytes s.nonceBytes = true → s.OpenReach →
    s.claimedTag ≠ s.openTag.toList →
      ∃ t : State,
        Host.Core.run Sys2Proof.core (s.adl + 2 * s.clen + 25) s = .next t ∧
        t = s.ended (s.mem.writeSeq s.outa (List.replicate s.clen 0)) .authFail 0 ∧
        accesses (s.adl + 2 * s.clen + 25) s = s.adl + 2 * s.clen + 16 ∧
        ∀ x, t.mem.read x = if s.outa ≤ x ∧ x < s.outa + s.clen then 0 else s.mem.read x

/-- Every accepted command ends (R161, R258), whatever finite interleaving of engine and host steps the schedule
names, as long as no reset is asserted and the host writes no soft reset: after the schedule's turns and at
most 3·INL + ADL + 25 steps more (as the model cuts them, log 2), at most 3·INL + ADL + 16 of all of them
memory accesses, it has completed, having been busy until then. The run stops before that only where the model stops it: an engine access
to a device region (log 10), or a host statement on an active region or past 2^32 (log 14). -/
def Obligations.EveryCommandEnds : Prop :=
  ∀ (s : State) (i : Instr), s.regs.busy = true → s.hid = Hidden.fresh (some i) .check →
    .assertReset ∉ s.turns → (∀ st ∈ s.script, st.softResets = false) →
    ∃ n : Nat, n ≤ s.turns.length + (3 * s.inl + s.adl + 25) ∧
      accesses n s ≤ 3 * s.inl + s.adl + 16 ∧
      (∀ m < n, ∃ u : State, Host.Core.run Sys2Proof.core m s = .next u ∧ u.regs.busy = true) ∧
      (Host.Core.run Sys2Proof.core n s = .refused .deviceBuffer ∨
        Host.Core.run Sys2Proof.core n s = .fault .hostRace ∨
        Host.Core.run Sys2Proof.core n s = .fault .hostNoSuchAddress ∨
        ∃ t : State, Host.Core.run Sys2Proof.core n s = .next t ∧ t.regs.busy = false ∧
          t.regs.done = true ∧ t.hid = Hidden.zero)

/-- Round trip (R166), both runs under the schedule with no host move (turns = [], log 2): a SEAL whose AD is
outside its window completes OK (BUSY clear, DONE set, OUT_LEN = PLEN + 16), and an OPEN of what it wrote, with
the same key, nonce and AD bytes and any window that passes the checks, completes OK (BUSY clear, DONE set,
OUT_LEN = PLEN) with the plaintext in its window. -/
def Obligations.OpenUndoesSeal : Prop :=
  ∀ s o : State, s.Accepted .sealCmd → s.sealFlaw = none →
    ksInitOk s.plat s.keyBytes s.nonceBytes = true → s.SealReach →
    (∀ x, s.ada ≤ x → x < s.ada + s.adl → ¬(s.outa ≤ x ∧ x < s.outa + s.plen)) →
    o.Accepted .openCmd → o.openFlaw = none → o.OpenReach →
    o.plat = s.plat → o.regs.key = s.regs.key → o.regs.nonce = s.regs.nonce →
    o.ina = s.outa → o.inl = s.plen + 16 → o.adl = s.adl →
    (∀ j < s.plen + 16, o.mem.read (o.ina + j) = s.sealMem.read (s.outa + j)) →
    (∀ j < s.adl, o.mem.read (o.ada + j) = s.mem.read (s.ada + j)) →
      ∃ (n m : Nat) (t u : State),
        Host.Core.run Sys2Proof.core n s = .next t ∧ t.mem = s.sealMem ∧ t.regs.result = .ok ∧
        t.regs.busy = false ∧ t.regs.done = true ∧ t.regs.outLen.toNat = s.plen + 16 ∧
        Host.Core.run Sys2Proof.core m o = .next u ∧ u.regs.result = .ok ∧
        u.regs.busy = false ∧ u.regs.done = true ∧ u.regs.outLen.toNat = s.plen ∧
        u.mem.readSeq o.outa s.plen = s.mem.readSeq s.ina s.plen

/-- Determinism and aliasing (R168, R170), both runs under the schedule with no host move (turns = [], log 2): two
SEALs of the same plaintext and AD bytes under the same key, nonce and collaborators write the same window
bytes and report the same result and OUT_LEN, in place or not, when neither has its AD in its window. -/
def Obligations.SealOutputDependsOnlyOnItsInputs : Prop :=
  ∀ s s' : State, s.Accepted .sealCmd → s'.Accepted .sealCmd →
    s.sealFlaw = none → s'.sealFlaw = none → s.SealReach → s'.SealReach →
    ksInitOk s.plat s.keyBytes s.nonceBytes = true →
    s'.plat.cipher = s.plat.cipher → s'.plat.refuses = s.plat.refuses → s'.plat.mac = s.plat.mac →
    s'.regs.key = s.regs.key → s'.regs.nonce = s.regs.nonce →
    s'.plen = s.plen → s'.adl = s.adl →
    (∀ j < s.plen, s'.mem.read (s'.ina + j) = s.mem.read (s.ina + j)) →
    (∀ j < s.adl, s'.mem.read (s'.ada + j) = s.mem.read (s.ada + j)) →
    (∀ x, s.ada ≤ x → x < s.ada + s.adl → ¬(s.outa ≤ x ∧ x < s.outa + s.plen)) →
    (∀ x, s'.ada ≤ x → x < s'.ada + s'.adl → ¬(s'.outa ≤ x ∧ x < s'.outa + s'.plen)) →
      ∃ (n n' : Nat) (t t' : State),
        Host.Core.run Sys2Proof.core n s = .next t ∧ Host.Core.run Sys2Proof.core n' s' = .next t' ∧
        t.regs.busy = false ∧ t'.regs.busy = false ∧ t.regs.done = true ∧ t'.regs.done = true ∧
        t.regs.result = .ok ∧ t'.regs.result = .ok ∧
        t'.regs.outLen = t.regs.outLen ∧
        t'.mem.readSeq s'.outa (s.plen + 16) = t.mem.readSeq s.outa (s.plen + 16)
end

