-- ==== Sys2Proof/Laws/Memory.lean ====
section
/-! SUPPORT. The laws of memory: a read after a write, and that every operation keeps the canonical form. -/

namespace Sys2Proof.Machine

theorem findCell_putCell (a x : Nat) (v : Byte) (cs : List Host.Cell) :
    findCell x (putCell a v cs) = if x = a then some v else findCell x cs := by
  induction cs with
  | nil => simp [putCell, findCell]
  | cons c cs ih =>
    unfold putCell
    split
    · simp only [findCell]
    · split
      · rename_i h
        simp only [findCell, ← h]
        split <;> rfl
      · rename_i h1 h2
        simp only [findCell, ih]
        split
        · rename_i h3
          rw [if_neg (by omega)]
        · rfl

theorem findCell_dropCell (a x : Nat) (cs : List Host.Cell) :
    findCell x (dropCell a cs) = if x = a then none else findCell x cs := by
  induction cs with
  | nil => simp [dropCell, findCell]
  | cons c cs ih =>
    unfold dropCell at ih ⊢
    by_cases hc : c.1 = a
    · simp only [List.filter_cons, hc, findCell, ne_eq, not_true_eq_false, decide_false,
        Bool.false_eq_true, if_false]
      rw [ih]
      split <;> rfl
    · simp only [List.filter_cons, hc, findCell, ne_eq, not_false_eq_true, decide_true, if_true]
      rw [ih]
      split
      · rename_i h
        rw [if_neg (by omega)]
      · rfl

theorem mem_putCell {a : Nat} {v : Byte} {cs : List Host.Cell} {d : Host.Cell}
    (h : d ∈ putCell a v cs) : d = (a, v) ∨ d ∈ cs := by
  induction cs with
  | nil => simpa [putCell] using h
  | cons c cs ih =>
    unfold putCell at h
    split at h
    · simpa using h
    · split at h
      · rcases List.mem_cons.1 h with h | h
        · exact .inl h
        · exact .inr (List.mem_cons_of_mem _ h)
      · rcases List.mem_cons.1 h with h | h
        · exact .inr (h ▸ List.mem_cons_self ..)
        · rcases ih h with h | h
          · exact .inl h
          · exact .inr (List.mem_cons_of_mem _ h)

theorem putCell_sorted (a : Nat) (v : Byte) (cs : List Host.Cell)
    (h : cs.Pairwise fun c d => c.1 < d.1) :
    (putCell a v cs).Pairwise fun c d => c.1 < d.1 := by
  induction cs with
  | nil => simp [putCell]
  | cons c cs ih =>
    have hc := List.pairwise_cons.1 h
    unfold putCell
    split
    · rename_i hlt
      refine List.pairwise_cons.2 ⟨?_, h⟩
      intro d hd
      rcases List.mem_cons.1 hd with hd | hd
      · exact hd ▸ hlt
      · exact Nat.lt_trans hlt (hc.1 d hd)
    · split
      · rename_i heq
        refine List.pairwise_cons.2 ⟨?_, hc.2⟩
        intro d hd
        exact heq ▸ hc.1 d hd
      · refine List.pairwise_cons.2 ⟨?_, ih hc.2⟩
        intro d hd
        rcases mem_putCell hd with hd | hd
        · subst hd
          show c.1 < a
          omega
        · exact hc.1 d hd

@[simp] theorem write_image (m : Memory) (a : Nat) (v : Byte) : (m.write a v).image = m.image := rfl

theorem read_write (m : Memory) (a x : Nat) (v : Byte) :
    (m.write a v).read x = if x = a then v else m.read x := by
  unfold Memory.read Memory.write
  dsimp only
  split
  · rename_i hv
    rw [findCell_dropCell]
    split
    · rename_i hx
      simp [hx, hv]
    · rfl
  · rw [findCell_putCell]
    split <;> rfl

/-- A read after a write to the same address gives the byte written. -/
@[simp] theorem read_write_same (m : Memory) (a : Nat) (v : Byte) : (m.write a v).read a = v := by
  rw [read_write, if_pos rfl]

/-- A write leaves every other address alone. -/
theorem read_write_other (m : Memory) {a x : Nat} (v : Byte) (h : x ≠ a) :
    (m.write a v).read x = m.read x := by
  rw [read_write, if_neg h]

/-- A write below 2^32 keeps the canonical form. -/
theorem write_wf {m : Memory} (h : m.wf) {a : Nat} (ha : a < Config.addrSpace) (v : Byte) :
    (m.write a v).wf := by
  unfold Memory.wf Memory.write
  dsimp only
  split
  · exact ⟨h.1.filter _, fun c hc => h.2 c (List.mem_filter.1 hc).1⟩
  · rename_i hv
    refine ⟨putCell_sorted a v _ h.1, fun c hc => ?_⟩
    rcases mem_putCell hc with hc | hc
    · subst hc
      exact ⟨ha, hv⟩
    · exact h.2 c hc

@[simp] theorem writeSeq_image (m : Memory) (a : Nat) (bs : List Byte) :
    (m.writeSeq a bs).image = m.image := by
  induction bs generalizing m a with
  | nil => rfl
  | cons b bs ih => simp [Memory.writeSeq, ih]

/-- Writing a byte string below 2^32 keeps the canonical form. -/
theorem writeSeq_wf {m : Memory} (h : m.wf) (a : Nat) (bs : List Byte)
    (ha : a + bs.length ≤ Config.addrSpace) : (m.writeSeq a bs).wf := by
  induction bs generalizing m a with
  | nil => exact h
  | cons b bs ih =>
    simp only [List.length_cons] at ha
    exact ih (write_wf h (by omega) b) (a + 1) (by omega)

/-- What a read gives after a byte string has been written. -/
theorem read_writeSeq (m : Memory) (a x : Nat) (bs : List Byte) :
    (m.writeSeq a bs).read x =
      if h : a ≤ x ∧ x < a + bs.length then bs[x - a]'(by omega) else m.read x := by
  induction bs generalizing m a with
  | nil =>
    rw [dif_neg (by simp)]
    rfl
  | cons b bs ih =>
    rw [Memory.writeSeq, ih]
    by_cases hx : x = a
    · subst hx
      rw [dif_neg (by omega), dif_pos ⟨Nat.le_refl _, by simp⟩]
      simp
    · by_cases hr : a + 1 ≤ x ∧ x < a + 1 + bs.length
      · rw [dif_pos hr, dif_pos ⟨by omega, by simp only [List.length_cons]; omega⟩,
          List.getElem_cons, dif_neg (by omega)]
        congr 1
      · rw [dif_neg hr, dif_neg (by simp only [List.length_cons]; omega),
          read_write_other m b hx]

@[simp] theorem readSeq_length (m : Memory) (a n : Nat) : (m.readSeq a n).length = n := by
  simp [Memory.readSeq]

@[simp] theorem readSeq_getElem (m : Memory) (a n i : Nat) (h : i < (m.readSeq a n).length) :
    (m.readSeq a n)[i] = m.read (a + i) := by
  simp [Memory.readSeq]

theorem readSeq_succ (m : Memory) (a n : Nat) :
    m.readSeq a (n + 1) = m.readSeq a n ++ [m.read (a + n)] := by
  simp [Memory.readSeq, List.range_succ]

end Sys2Proof.Machine
end

