-- ==== Sys2Proof/Laws/State.lean ====
section
/-! SUPPORT. For each state update that always happens, what each field of State is after it. -/

namespace Sys2Proof.Machine

@[simp] theorem raise_eq (s : State) (r : Result) : s.raise r = s.complete r 0 := rfl

@[simp] theorem finish_eq (s : State) (n : Nat) : s.finish n = s.complete .ok n := rfl

@[simp] theorem goto_regs (s : State) (p : Pos) : (s.goto p).regs = s.regs := rfl
@[simp] theorem goto_hid (s : State) (p : Pos) : (s.goto p).hid = { s.hid with pos := p } := rfl
@[simp] theorem goto_mem (s : State) (p : Pos) : (s.goto p).mem = s.mem := rfl
@[simp] theorem goto_plat (s : State) (p : Pos) : (s.goto p).plat = s.plat := rfl
@[simp] theorem goto_resetIn (s : State) (p : Pos) : (s.goto p).resetIn = s.resetIn := rfl
@[simp] theorem goto_turns (s : State) (p : Pos) : (s.goto p).turns = s.turns := rfl
@[simp] theorem goto_script (s : State) (p : Pos) : (s.goto p).script = s.script := rfl
@[simp] theorem goto_replies (s : State) (p : Pos) : (s.goto p).replies = s.replies := rfl
@[simp] theorem goto_cache (s : State) (p : Pos) : (s.goto p).cache = s.cache := rfl
@[simp] theorem goto_draws (s : State) (p : Pos) : (s.goto p).draws = s.draws := rfl
@[simp] theorem goto_accessFault (s : State) (p : Pos) :
    (s.goto p).accessFault = s.accessFault := rfl

@[simp] theorem complete_regs (s : State) (r : Result) (n : Nat) :
    (s.complete r n).regs = { s.regs with
      outLen := if r = .ok then BitVec.ofNat 32 n else 0, result := r,
      fatal := s.regs.fatal || r.isFatal, busy := false, done := true } := rfl
@[simp] theorem complete_hid (s : State) (r : Result) (n : Nat) :
    (s.complete r n).hid = Hidden.zero := rfl
@[simp] theorem complete_mem (s : State) (r : Result) (n : Nat) :
    (s.complete r n).mem = s.mem := rfl
@[simp] theorem complete_plat (s : State) (r : Result) (n : Nat) :
    (s.complete r n).plat = s.plat := rfl
@[simp] theorem complete_resetIn (s : State) (r : Result) (n : Nat) :
    (s.complete r n).resetIn = s.resetIn := rfl
@[simp] theorem complete_turns (s : State) (r : Result) (n : Nat) :
    (s.complete r n).turns = s.turns := rfl
@[simp] theorem complete_script (s : State) (r : Result) (n : Nat) :
    (s.complete r n).script = s.script := rfl
@[simp] theorem complete_replies (s : State) (r : Result) (n : Nat) :
    (s.complete r n).replies = s.replies := rfl
@[simp] theorem complete_cache (s : State) (r : Result) (n : Nat) :
    (s.complete r n).cache = s.cache := rfl
@[simp] theorem complete_draws (s : State) (r : Result) (n : Nat) :
    (s.complete r n).draws = s.draws := rfl
@[simp] theorem complete_accessFault (s : State) (r : Result) (n : Nat) :
    (s.complete r n).accessFault = s.accessFault := rfl

@[simp] theorem ignore_regs (s : State) : s.ignore.regs = { s.regs with ign := true } := rfl
@[simp] theorem ignore_hid (s : State) : s.ignore.hid = s.hid := rfl
@[simp] theorem ignore_mem (s : State) : s.ignore.mem = s.mem := rfl
@[simp] theorem ignore_plat (s : State) : s.ignore.plat = s.plat := rfl
@[simp] theorem ignore_resetIn (s : State) : s.ignore.resetIn = s.resetIn := rfl
@[simp] theorem ignore_turns (s : State) : s.ignore.turns = s.turns := rfl
@[simp] theorem ignore_script (s : State) : s.ignore.script = s.script := rfl
@[simp] theorem ignore_replies (s : State) : s.ignore.replies = s.replies := rfl
@[simp] theorem ignore_cache (s : State) : s.ignore.cache = s.cache := rfl
@[simp] theorem ignore_draws (s : State) : s.ignore.draws = s.draws := rfl
@[simp] theorem ignore_accessFault (s : State) : s.ignore.accessFault = s.accessFault := rfl

@[simp] theorem accept_regs (s : State) (i : Instr) :
    (s.accept i).regs = { s.regs with busy := true, done := false, result := .ok, outLen := 0 } := rfl
@[simp] theorem accept_hid (s : State) (i : Instr) :
    (s.accept i).hid = { s.hid with op := some i, pos := .check } := rfl
@[simp] theorem accept_mem (s : State) (i : Instr) : (s.accept i).mem = s.mem := rfl
@[simp] theorem accept_plat (s : State) (i : Instr) : (s.accept i).plat = s.plat := rfl
@[simp] theorem accept_resetIn (s : State) (i : Instr) : (s.accept i).resetIn = s.resetIn := rfl
@[simp] theorem accept_turns (s : State) (i : Instr) : (s.accept i).turns = s.turns := rfl
@[simp] theorem accept_script (s : State) (i : Instr) : (s.accept i).script = s.script := rfl
@[simp] theorem accept_replies (s : State) (i : Instr) : (s.accept i).replies = s.replies := rfl
@[simp] theorem accept_cache (s : State) (i : Instr) : (s.accept i).cache = s.cache := rfl
@[simp] theorem accept_draws (s : State) (i : Instr) : (s.accept i).draws = s.draws := rfl
@[simp] theorem accept_accessFault (s : State) (i : Instr) :
    (s.accept i).accessFault = s.accessFault := rfl

@[simp] theorem resetEngine_regs (s : State) : s.resetEngine.regs = Regs.reset := rfl
@[simp] theorem resetEngine_hid (s : State) : s.resetEngine.hid = Hidden.zero := rfl
@[simp] theorem resetEngine_mem (s : State) : s.resetEngine.mem = s.mem := rfl
@[simp] theorem resetEngine_plat (s : State) : s.resetEngine.plat = s.plat := rfl
@[simp] theorem resetEngine_resetIn (s : State) : s.resetEngine.resetIn = s.resetIn := rfl
@[simp] theorem resetEngine_turns (s : State) : s.resetEngine.turns = s.turns := rfl
@[simp] theorem resetEngine_script (s : State) : s.resetEngine.script = s.script := rfl
@[simp] theorem resetEngine_replies (s : State) : s.resetEngine.replies = s.replies := rfl
@[simp] theorem resetEngine_cache (s : State) : s.resetEngine.cache = s.cache := rfl
@[simp] theorem resetEngine_draws (s : State) : s.resetEngine.draws = s.draws := rfl
@[simp] theorem resetEngine_accessFault (s : State) :
    s.resetEngine.accessFault = s.accessFault := rfl

@[simp] theorem xformAdvance_regs (s : State) (i : Nat) (y : Byte) :
    (s.xformAdvance i y).regs = s.regs := rfl
@[simp] theorem xformAdvance_hid (s : State) (i : Nat) (y : Byte) :
    (s.xformAdvance i y).hid = { s.hid with
      outBytes := s.hid.outBytes ++ [y], kspos := s.hid.kspos + 1, pos := .xformRead (i + 1) } := rfl
@[simp] theorem xformAdvance_mem (s : State) (i : Nat) (y : Byte) :
    (s.xformAdvance i y).mem = s.mem := rfl
@[simp] theorem xformAdvance_plat (s : State) (i : Nat) (y : Byte) :
    (s.xformAdvance i y).plat = s.plat := rfl
@[simp] theorem xformAdvance_resetIn (s : State) (i : Nat) (y : Byte) :
    (s.xformAdvance i y).resetIn = s.resetIn := rfl
@[simp] theorem xformAdvance_turns (s : State) (i : Nat) (y : Byte) :
    (s.xformAdvance i y).turns = s.turns := rfl
@[simp] theorem xformAdvance_script (s : State) (i : Nat) (y : Byte) :
    (s.xformAdvance i y).script = s.script := rfl
@[simp] theorem xformAdvance_replies (s : State) (i : Nat) (y : Byte) :
    (s.xformAdvance i y).replies = s.replies := rfl
@[simp] theorem xformAdvance_cache (s : State) (i : Nat) (y : Byte) :
    (s.xformAdvance i y).cache = s.cache := rfl
@[simp] theorem xformAdvance_draws (s : State) (i : Nat) (y : Byte) :
    (s.xformAdvance i y).draws = s.draws := rfl
@[simp] theorem xformAdvance_accessFault (s : State) (i : Nat) (y : Byte) :
    (s.xformAdvance i y).accessFault = s.accessFault := rfl

@[simp] theorem macAssemble_regs (s : State) (c : List Byte) :
    (s.macAssemble c).regs = s.regs := rfl
@[simp] theorem macAssemble_hid (s : State) (c : List Byte) :
    (s.macAssemble c).hid = { s.hid with macbuf := macInput s.hid.adBytes c, pos := .tagCompute } := rfl
@[simp] theorem macAssemble_mem (s : State) (c : List Byte) : (s.macAssemble c).mem = s.mem := rfl
@[simp] theorem macAssemble_plat (s : State) (c : List Byte) :
    (s.macAssemble c).plat = s.plat := rfl
@[simp] theorem macAssemble_resetIn (s : State) (c : List Byte) :
    (s.macAssemble c).resetIn = s.resetIn := rfl
@[simp] theorem macAssemble_turns (s : State) (c : List Byte) :
    (s.macAssemble c).turns = s.turns := rfl
@[simp] theorem macAssemble_script (s : State) (c : List Byte) :
    (s.macAssemble c).script = s.script := rfl
@[simp] theorem macAssemble_replies (s : State) (c : List Byte) :
    (s.macAssemble c).replies = s.replies := rfl
@[simp] theorem macAssemble_cache (s : State) (c : List Byte) :
    (s.macAssemble c).cache = s.cache := rfl
@[simp] theorem macAssemble_draws (s : State) (c : List Byte) :
    (s.macAssemble c).draws = s.draws := rfl
@[simp] theorem macAssemble_accessFault (s : State) (c : List Byte) :
    (s.macAssemble c).accessFault = s.accessFault := rfl

@[simp] theorem tagCompute_regs (s : State) (p : Pos) : (s.tagCompute p).regs = s.regs := rfl
@[simp] theorem tagCompute_hid (s : State) (p : Pos) :
    (s.tagCompute p).hid = { s.hid with etag := macTag s.plat s.hid.otk s.hid.macbuf, pos := p } := rfl
@[simp] theorem tagCompute_mem (s : State) (p : Pos) : (s.tagCompute p).mem = s.mem := rfl
@[simp] theorem tagCompute_plat (s : State) (p : Pos) : (s.tagCompute p).plat = s.plat := rfl
@[simp] theorem tagCompute_resetIn (s : State) (p : Pos) :
    (s.tagCompute p).resetIn = s.resetIn := rfl
@[simp] theorem tagCompute_turns (s : State) (p : Pos) : (s.tagCompute p).turns = s.turns := rfl
@[simp] theorem tagCompute_script (s : State) (p : Pos) : (s.tagCompute p).script = s.script := rfl
@[simp] theorem tagCompute_replies (s : State) (p : Pos) :
    (s.tagCompute p).replies = s.replies := rfl
@[simp] theorem tagCompute_cache (s : State) (p : Pos) : (s.tagCompute p).cache = s.cache := rfl
@[simp] theorem tagCompute_draws (s : State) (p : Pos) : (s.tagCompute p).draws = s.draws := rfl
@[simp] theorem tagCompute_accessFault (s : State) (p : Pos) :
    (s.tagCompute p).accessFault = s.accessFault := rfl

@[simp] theorem tagCompare_regs (s : State) : s.tagCompare.regs = s.regs := rfl
@[simp] theorem tagCompare_hid (s : State) :
    s.tagCompare.hid = { s.hid with diff := tagDiff s.hid.etag s.hid.ctag, pos := .tagVerdict } := rfl
@[simp] theorem tagCompare_mem (s : State) : s.tagCompare.mem = s.mem := rfl
@[simp] theorem tagCompare_plat (s : State) : s.tagCompare.plat = s.plat := rfl
@[simp] theorem tagCompare_resetIn (s : State) : s.tagCompare.resetIn = s.resetIn := rfl
@[simp] theorem tagCompare_turns (s : State) : s.tagCompare.turns = s.turns := rfl
@[simp] theorem tagCompare_script (s : State) : s.tagCompare.script = s.script := rfl
@[simp] theorem tagCompare_replies (s : State) : s.tagCompare.replies = s.replies := rfl
@[simp] theorem tagCompare_cache (s : State) : s.tagCompare.cache = s.cache := rfl
@[simp] theorem tagCompare_draws (s : State) : s.tagCompare.draws = s.draws := rfl
@[simp] theorem tagCompare_accessFault (s : State) :
    s.tagCompare.accessFault = s.accessFault := rfl

@[simp] theorem portError_regs (s : State) (r : Reply) : (s.portError r).regs = s.regs := rfl
@[simp] theorem portError_hid (s : State) (r : Reply) : (s.portError r).hid = s.hid := rfl
@[simp] theorem portError_mem (s : State) (r : Reply) : (s.portError r).mem = s.mem := rfl
@[simp] theorem portError_plat (s : State) (r : Reply) : (s.portError r).plat = s.plat := rfl
@[simp] theorem portError_resetIn (s : State) (r : Reply) : (s.portError r).resetIn = s.resetIn := rfl
@[simp] theorem portError_turns (s : State) (r : Reply) : (s.portError r).turns = s.turns := rfl
@[simp] theorem portError_script (s : State) (r : Reply) : (s.portError r).script = s.script := rfl
@[simp] theorem portError_replies (s : State) (r : Reply) : (s.portError r).replies = r :: s.replies := rfl
@[simp] theorem portError_cache (s : State) (r : Reply) : (s.portError r).cache = s.cache := rfl
@[simp] theorem portError_draws (s : State) (r : Reply) : (s.portError r).draws = s.draws := rfl
@[simp] theorem portError_accessFault (s : State) (r : Reply) : (s.portError r).accessFault = true := rfl

end Sys2Proof.Machine
end

