-- ==== Sys2Proof/Laws/Ops.lean ====
section
/-! SUPPORT. Everything each shared operation can do, said once: bus accesses, acceptance, the check and key
schedule stages, completion. -/

namespace Sys2Proof.Machine

theorem busRead_busErr {s : State} {x : Nat} (k : Byte → State) (h : memOk s.plat .read x = false) :
    s.busRead x k = .next (s.complete .busErr 0) := by
  simp [State.busRead, h]

theorem busRead_device {s : State} {x : Nat} (k : Byte → State) (h : memOk s.plat .read x = true)
    (hd : isDevice s.plat x = true) : s.busRead x k = .refused .deviceBuffer := by
  simp [State.busRead, h, hd]

theorem busRead_ok {s : State} {x : Nat} (k : Byte → State) (h : memOk s.plat .read x = true)
    (hd : isDevice s.plat x = false) : s.busRead x k = .next (k (s.mem.read x)) := by
  simp [State.busRead, h, hd]

/-- A bus read that answers a next state gave its byte or ended in a bus error. -/
theorem busRead_next {s t : State} {x : Nat} {k : Byte → State} (h : s.busRead x k = .next t) :
    (memOk s.plat .read x = false ∧ t = s.complete .busErr 0) ∨
      (memOk s.plat .read x = true ∧ isDevice s.plat x = false ∧ t = k (s.mem.read x)) := by
  unfold State.busRead at h
  split at h
  · rename_i h1
    injection h with h
    exact .inl ⟨h1, h.symm⟩
  · split at h
    · cases h
    · rename_i h1 h2
      injection h with h
      exact .inr ⟨by simpa using h1, by simpa using h2, h.symm⟩

theorem busWrite_busErr {s : State} {x : Nat} (v : Byte) (k : State → State)
    (h : memOk s.plat .write x = false) : s.busWrite x v k = .next (s.complete .busErr 0) := by
  simp [State.busWrite, h]

theorem busWrite_device {s : State} {x : Nat} (v : Byte) (k : State → State)
    (h : memOk s.plat .write x = true) (hd : isDevice s.plat x = true) :
    s.busWrite x v k = .refused .deviceBuffer := by
  simp [State.busWrite, h, hd]

theorem busWrite_ok {s : State} {x : Nat} (v : Byte) (k : State → State)
    (h : memOk s.plat .write x = true) (hd : isDevice s.plat x = false) :
    s.busWrite x v k = .next (k { s with mem := s.mem.write x v }) := by
  simp [State.busWrite, h, hd]

/-- A bus write that answers a next state wrote its byte or ended in a bus error. -/
theorem busWrite_next {s t : State} {x : Nat} {v : Byte} {k : State → State}
    (h : s.busWrite x v k = .next t) :
    (memOk s.plat .write x = false ∧ t = s.complete .busErr 0) ∨
      (memOk s.plat .write x = true ∧ isDevice s.plat x = false ∧
        t = k { s with mem := s.mem.write x v }) := by
  unfold State.busWrite at h
  split at h
  · rename_i h1
    injection h with h
    exact .inl ⟨h1, h.symm⟩
  · split at h
    · cases h
    · rename_i h1 h2
      injection h with h
      exact .inr ⟨by simpa using h1, by simpa using h2, h.symm⟩

/-- A byte the engine may read or write lies below 2^32. -/
theorem memOk_lt {p : Platform} {acc : AccessKind} {x : Nat} (h : memOk p acc x = true) :
    x < Config.addrSpace := by
  simp only [memOk, Bool.and_eq_true, decide_eq_true_eq] at h
  exact h.1.1

/-- A command issued to an idle engine is refused by the fatal lock or accepted. -/
theorem issue_cases (s : State) (i : Instr) :
    (s.regs.fatal = true ∧ s.issue i = s.ignore) ∨ (s.regs.fatal = false ∧ s.issue i = s.accept i) := by
  unfold State.issue
  cases s.regs.fatal <;> simp

/-- A CMD write is ignored or accepted. -/
theorem cmdWrite_cases (s : State) (w : Word) :
    ((s.regs.busy = true ∨ s.regs.fatal = true) ∧ s.cmdWrite w = s.ignore) ∨
      (s.regs.busy = false ∧ s.regs.fatal = false ∧ s.cmdWrite w = s.accept (decode w)) := by
  unfold State.cmdWrite State.issue
  cases s.regs.busy <;> cases s.regs.fatal <;> simp

theorem checkStage_cases (s : State) (flaw : Option Result) :
    (∃ r, flaw = some r ∧ s.checkStage flaw = s.complete r 0) ∨
      (flaw = none ∧ s.checkStage flaw = s.goto .keySched) := by
  cases flaw with
  | none => exact .inr ⟨rfl, rfl⟩
  | some r => exact .inl ⟨r, rfl, rfl⟩

theorem keySched_cases (s : State) (next : Pos) :
    (ksInitOk s.plat s.keyBytes s.nonceBytes = false ∧ s.keySched next = s.complete .construct 0) ∨
      (ksInitOk s.plat s.keyBytes s.nonceBytes = true ∧
        s.keySched next =
          { s with hid := { s.hid with
              otk := deriveOtk s.plat s.keyBytes s.nonceBytes, kspos := 64, pos := next } }) := by
  unfold State.keySched
  cases ksInitOk s.plat s.keyBytes s.nonceBytes <;> simp

theorem tagVerdict_cases (s : State) :
    (s.hid.diff = 0 ∧ s.tagVerdict = s.goto (.xformRead 0)) ∨
      (s.hid.diff ≠ 0 ∧ s.tagVerdict = s.goto (.zeroFill 0)) := by
  unfold State.tagVerdict
  split
  · rename_i h
    exact .inl ⟨h, rfl⟩
  · rename_i h
    exact .inr ⟨h, rfl⟩

/-- A guarded register write is ignored while busy and done otherwise. -/
theorem guarded_cases (s : State) (f : Regs → Regs) :
    (s.regs.busy = true ∧ s.guarded f = s.ignore) ∨
      (s.regs.busy = false ∧ s.guarded f = { s with regs := f s.regs }) := by
  unfold State.guarded
  cases s.regs.busy <;> simp

/-- A CTRL write is a soft reset or sets IE. -/
theorem ctrlWrite_cases (s : State) (v : Word) :
    (v[1] = true ∧ s.ctrlWrite v = s.resetEngine) ∨
      (v[1] = false ∧
        s.ctrlWrite v = { s with regs := { s.regs with ie := v[0] } }) := by
  unfold State.ctrlWrite
  cases v[1] <;> simp

@[simp] theorem isFatal_ok : Result.ok.isFatal = false := rfl
@[simp] theorem isFatal_authFail : Result.authFail.isFatal = false := rfl
@[simp] theorem isFatal_badCmd : Result.badCmd.isFatal = false := rfl
@[simp] theorem isFatal_overlap : Result.overlap.isFatal = true := rfl
@[simp] theorem isFatal_range : Result.range.isFatal = true := rfl
@[simp] theorem isFatal_construct : Result.construct.isFatal = true := rfl
@[simp] theorem isFatal_busErr : Result.busErr.isFatal = true := rfl

/-- While the cache is filled, only the cache changes. -/
theorem cacheFill_cases (s : State) (a : Nat) (v : Byte) :
    s.cacheFill a v = s ∨ s.cacheFill a v = { s with cache := putCell a v s.cache } := by
  unfold State.cacheFill
  cases s.plat.coherent <;> simp

end Sys2Proof.Machine
end

