-- ==== Sys2Proof/Laws/Port.lean ====
section
/-! SUPPORT. Which register each access of the window reaches, and what the register writes do. -/

namespace Sys2Proof.Machine

@[simp] theorem portReg_id : portReg 0#8 .b32 = some .id := by decide
@[simp] theorem portReg_version : portReg 4#8 .b32 = some .version := by decide
@[simp] theorem portReg_ctrl : portReg 8#8 .b32 = some .ctrl := by decide
@[simp] theorem portReg_cmd : portReg 12#8 .b32 = some .cmd := by decide
@[simp] theorem portReg_status : portReg 16#8 .b32 = some .status := by decide
@[simp] theorem portReg_inAddr : portReg 20#8 .b32 = some .inAddr := by decide
@[simp] theorem portReg_inLen : portReg 24#8 .b32 = some .inLen := by decide
@[simp] theorem portReg_adAddr : portReg 28#8 .b32 = some .adAddr := by decide
@[simp] theorem portReg_adLen : portReg 32#8 .b32 = some .adLen := by decide
@[simp] theorem portReg_outAddr : portReg 36#8 .b32 = some .outAddr := by decide
@[simp] theorem portReg_outLen : portReg 40#8 .b32 = some .outLen := by decide

@[simp] theorem portReg_key (j : Fin 8) :
    portReg (BitVec.ofNat 8 (0x40 + 4 * j.val)) .b32 = some (.key j) := by
  revert j
  decide

@[simp] theorem portReg_nonce (j : Fin 3) :
    portReg (BitVec.ofNat 8 (0x60 + 4 * j.val)) .b32 = some (.nonce j) := by
  revert j
  decide

/-- A 32-bit access at a reserved offset reaches no register that holds a value (R36). -/
theorem portReg_reserved (off : BitVec 8) (h4 : off.toNat % 4 = 0)
    (h : (0x2C ≤ off.toNat ∧ off.toNat < 0x40) ∨ 0x6C ≤ off.toNat) :
    portReg off .b32 = some .reserved := by
  revert off
  decide

/-- Only a 32-bit access at a 4-byte-aligned offset reaches a register (R21). -/
theorem portReg_eq_none {off : BitVec 8} {width : Width} :
    portReg off width = none ↔ width ≠ .b32 ∨ off.toNat % 4 ≠ 0 := by
  cases width with
  | b32 =>
    have h : ∀ off : BitVec 8, portReg off .b32 = none ↔ off.toNat % 4 ≠ 0 := by decide
    simp [h]
  | b8 => simp [portReg]
  | b16 => simp [portReg]
  | b64 => simp [portReg]

theorem portWrite_reg {off : BitVec 8} {width : Width} {r : RegName} (h : portReg off width = some r)
    (s : State) (v : Word) : s.portWrite off width v = s.regWrite r v := by
  simp only [State.portWrite, h]

theorem portRead_reg {off : BitVec 8} {width : Width} {r : RegName} (h : portReg off width = some r)
    (s : State) :
    s.portRead off width = { s with replies := .word (s.regRead r) :: s.replies } := by
  simp only [State.portRead, h]

theorem portWrite_none {off : BitVec 8} {width : Width} (h : portReg off width = none) (s : State)
    (v : Word) : s.portWrite off width v = s.portError .error := by
  simp only [State.portWrite, h]

theorem portRead_none {off : BitVec 8} {width : Width} (h : portReg off width = none) (s : State) :
    s.portRead off width = s.portError (.readError 0) := by
  show _ = s.portError (.readError malformedValue)
  simp only [State.portRead, h]

/-- Everything a register write can do: nothing, set IGN, accept a command, a soft reset, or change IE, DONE
and IGN, or one operand, key or nonce register of an engine that is not busy. -/
theorem regWrite_cases (s : State) (r : RegName) (v : Word) :
    s.regWrite r v = s ∨ s.regWrite r v = s.ignore ∨ s.regWrite r v = s.resetEngine ∨
      (s.resetIn = false ∧ s.regs.busy = false ∧ s.regs.fatal = false ∧
        s.regWrite r v = s.accept (decode v)) ∨
      s.regWrite r v = { s with regs := { s.regs with ie := v[0] } } ∨
      s.regWrite r v = { s with regs := s.regs.statusWrite v } ∨
      (s.resetIn = false ∧ s.regs.busy = false ∧
        ∃ a al d dl o k n, s.regWrite r v =
          { s with regs := { s.regs with
              inAddr := a, inLen := al, adAddr := d, adLen := dl, outAddr := o, key := k,
              nonce := n } }) := by
  by_cases hr : s.resetIn = true
  · exact .inl (by simp [State.regWrite, hr])
  · have hr' : s.resetIn = false := by simpa using hr
    have live : s.regWrite r v = s.regWriteLive r v := by simp [State.regWrite, hr]
    have guard (f : Regs → Regs) (h : s.regWriteLive r v = s.guarded f)
        (hf : ∃ a al d dl o k n, f s.regs =
          { s.regs with
              inAddr := a, inLen := al, adAddr := d, adLen := dl, outAddr := o, key := k,
              nonce := n }) :
        s.regWriteLive r v = s.ignore ∨
          (s.resetIn = false ∧ s.regs.busy = false ∧
            ∃ a al d dl o k n, s.regWriteLive r v =
              { s with regs := { s.regs with
                  inAddr := a, inLen := al, adAddr := d, adLen := dl, outAddr := o, key := k,
                  nonce := n } }) := by
      rcases guarded_cases s f with ⟨_, hg⟩ | ⟨hb, hg⟩
      · exact .inl (h.trans hg)
      · obtain ⟨a, al, d, dl, o, k, n, hf⟩ := hf
        exact .inr ⟨hr', hb, a, al, d, dl, o, k, n, by rw [h, hg, hf]⟩
    rw [live]
    cases r with
    | id => exact .inl rfl
    | version => exact .inl rfl
    | outLen => exact .inl rfl
    | reserved => exact .inl rfl
    | ctrl =>
      rcases ctrlWrite_cases s v with ⟨_, h⟩ | ⟨_, h⟩
      · exact .inr (.inr (.inl h))
      · exact .inr (.inr (.inr (.inr (.inl h))))
    | cmd =>
      rcases cmdWrite_cases s v with ⟨_, h⟩ | ⟨hb, hf, h⟩
      · exact .inr (.inl h)
      · exact .inr (.inr (.inr (.inl ⟨hr', hb, hf, h⟩)))
    | status => exact .inr (.inr (.inr (.inr (.inr (.inl rfl)))))
    | inAddr =>
      rcases guard (fun g => { g with inAddr := v }) rfl ⟨_, _, _, _, _, _, _, rfl⟩ with h | h
      · exact .inr (.inl h)
      · exact .inr (.inr (.inr (.inr (.inr (.inr h)))))
    | inLen =>
      rcases guard (fun g => { g with inLen := v }) rfl ⟨_, _, _, _, _, _, _, rfl⟩ with h | h
      · exact .inr (.inl h)
      · exact .inr (.inr (.inr (.inr (.inr (.inr h)))))
    | adAddr =>
      rcases guard (fun g => { g with adAddr := v }) rfl ⟨_, _, _, _, _, _, _, rfl⟩ with h | h
      · exact .inr (.inl h)
      · exact .inr (.inr (.inr (.inr (.inr (.inr h)))))
    | adLen =>
      rcases guard (fun g => { g with adLen := v }) rfl ⟨_, _, _, _, _, _, _, rfl⟩ with h | h
      · exact .inr (.inl h)
      · exact .inr (.inr (.inr (.inr (.inr (.inr h)))))
    | outAddr =>
      rcases guard (fun g => { g with outAddr := v }) rfl ⟨_, _, _, _, _, _, _, rfl⟩ with h | h
      · exact .inr (.inl h)
      · exact .inr (.inr (.inr (.inr (.inr (.inr h)))))
    | key j =>
      rcases guard (fun g => { g with key := g.key.set j v }) rfl ⟨_, _, _, _, _, _, _, rfl⟩ with h | h
      · exact .inr (.inl h)
      · exact .inr (.inr (.inr (.inr (.inr (.inr h)))))
    | nonce j =>
      rcases guard (fun g => { g with nonce := g.nonce.set j v }) rfl ⟨_, _, _, _, _, _, _, rfl⟩ with h | h
      · exact .inr (.inl h)
      · exact .inr (.inr (.inr (.inr (.inr (.inr h)))))

/-- A host read of a byte changes the host's side only. -/
theorem hostReadByte_frame (s : State) (a : Nat) :
    (s.hostReadByte a).2.regs = s.regs ∧ (s.hostReadByte a).2.hid = s.hid ∧
      (s.hostReadByte a).2.mem = s.mem ∧ (s.hostReadByte a).2.plat = s.plat ∧
      (s.hostReadByte a).2.resetIn = s.resetIn ∧ (s.hostReadByte a).2.turns = s.turns ∧
      (s.hostReadByte a).2.script = s.script ∧ (s.hostReadByte a).2.replies = s.replies := by
  unfold State.hostReadByte State.cacheFill
  split
  · simp
  · split <;> dsimp only <;> split <;> simp

/-- A host read of a byte string changes the host's side only. -/
theorem hostReadSeq_frame (s : State) (a n : Nat) :
    (s.hostReadSeq a n).2.regs = s.regs ∧ (s.hostReadSeq a n).2.hid = s.hid ∧
      (s.hostReadSeq a n).2.mem = s.mem ∧ (s.hostReadSeq a n).2.plat = s.plat ∧
      (s.hostReadSeq a n).2.resetIn = s.resetIn ∧ (s.hostReadSeq a n).2.turns = s.turns ∧
      (s.hostReadSeq a n).2.script = s.script ∧ (s.hostReadSeq a n).2.replies = s.replies := by
  induction n generalizing s a with
  | zero => simp [State.hostReadSeq]
  | succ n ih =>
    simp only [State.hostReadSeq]
    have h := hostReadByte_frame s a
    have g := ih (s.hostReadByte a).2 (a + 1)
    exact ⟨g.1.trans h.1, g.2.1.trans h.2.1, g.2.2.1.trans h.2.2.1, g.2.2.2.1.trans h.2.2.2.1,
      g.2.2.2.2.1.trans h.2.2.2.2.1, g.2.2.2.2.2.1.trans h.2.2.2.2.2.1,
      g.2.2.2.2.2.2.1.trans h.2.2.2.2.2.2.1, g.2.2.2.2.2.2.2.trans h.2.2.2.2.2.2.2⟩

/-- A host write of a byte below 2^32 changes memory and the host's side only, and keeps memory's form. -/
theorem hostWriteByte_frame (s : State) (a : Nat) (v : Byte) :
    (s.hostWriteByte a v).regs = s.regs ∧ (s.hostWriteByte a v).hid = s.hid ∧
      (s.hostWriteByte a v).plat = s.plat ∧ (s.hostWriteByte a v).resetIn = s.resetIn ∧
      (s.hostWriteByte a v).turns = s.turns ∧ (s.hostWriteByte a v).script = s.script ∧
      (s.hostWriteByte a v).replies = s.replies ∧
      ((s.hostWriteByte a v).mem = s.mem ∨ (s.hostWriteByte a v).mem = s.mem.write a v) := by
  unfold State.hostWriteByte State.cacheFill
  split
  · simp
  · dsimp only
    split <;> simp

/-- A host write of a byte string changes memory and the host's side only. -/
theorem hostWriteSeq_frame (s : State) (a : Nat) (bs : List Byte) :
    (s.hostWriteSeq a bs).regs = s.regs ∧ (s.hostWriteSeq a bs).hid = s.hid ∧
      (s.hostWriteSeq a bs).plat = s.plat ∧ (s.hostWriteSeq a bs).resetIn = s.resetIn ∧
      (s.hostWriteSeq a bs).turns = s.turns ∧ (s.hostWriteSeq a bs).script = s.script ∧
      (s.hostWriteSeq a bs).replies = s.replies := by
  induction bs generalizing s a with
  | nil => simp [State.hostWriteSeq]
  | cons b bs ih =>
    simp only [State.hostWriteSeq]
    have h := hostWriteByte_frame s a b
    have g := ih (s.hostWriteByte a b) (a + 1)
    exact ⟨g.1.trans h.1, g.2.1.trans h.2.1, g.2.2.1.trans h.2.2.1, g.2.2.2.1.trans h.2.2.2.1,
      g.2.2.2.2.1.trans h.2.2.2.2.1, g.2.2.2.2.2.1.trans h.2.2.2.2.2.1,
      g.2.2.2.2.2.2.trans h.2.2.2.2.2.2.1⟩

end Sys2Proof.Machine
end

