-- ==== Sys2Proof/Laws/Exec.lean ====
section
/-! SUPPORT. What a step of a command and a step of the host can do, said once. -/

namespace Sys2Proof.Machine

/-- What a step of a command that stores nothing and does not complete leaves: only hidden state changes,
and OP stays. -/
def HiddenStep (s t : State) : Prop := ∃ h : Hidden, t = { s with hid := h } ∧ h.op = s.hid.op

/-- What a step of a command that stores `v` at `a` leaves. -/
def StoreStep (s t : State) (a : Nat) : Prop :=
  ∃ (v : Byte) (h : Hidden), t = { s with mem := s.mem.write a v, hid := h } ∧ h.op = s.hid.op

theorem goto_hiddenStep (s : State) (p : Pos) : HiddenStep s (s.goto p) := ⟨_, rfl, rfl⟩

theorem checkStage_ends (s : State) (flaw : Option Result) :
    (∃ r n, s.checkStage flaw = s.complete r n) ∨ HiddenStep s (s.checkStage flaw) := by
  rcases checkStage_cases s flaw with ⟨r, _, h⟩ | ⟨_, h⟩
  · exact .inl ⟨r, 0, h⟩
  · exact .inr (h ▸ goto_hiddenStep s _)

theorem keySched_ends (s : State) (p : Pos) :
    (∃ r n, s.keySched p = s.complete r n) ∨ HiddenStep s (s.keySched p) := by
  rcases keySched_cases s p with ⟨_, h⟩ | ⟨_, h⟩
  · exact .inl ⟨_, _, h⟩
  · exact .inr ⟨_, h, rfl⟩

theorem tagVerdict_hiddenStep (s : State) : HiddenStep s s.tagVerdict := by
  rcases tagVerdict_cases s with ⟨_, h⟩ | ⟨_, h⟩ <;> exact h ▸ goto_hiddenStep s _

theorem macAssemble_hiddenStep (s : State) (c : List Byte) : HiddenStep s (s.macAssemble c) :=
  ⟨_, rfl, rfl⟩

theorem tagCompute_hiddenStep (s : State) (p : Pos) : HiddenStep s (s.tagCompute p) := ⟨_, rfl, rfl⟩

theorem tagCompare_hiddenStep (s : State) : HiddenStep s s.tagCompare := ⟨_, rfl, rfl⟩

/-- A bus read inside a command ends it or changes hidden state only. -/
theorem busRead_ends {s t : State} {x : Nat} {k : Byte → State} (h : s.busRead x k = .next t)
    (hk : ∀ b, HiddenStep s (k b)) : (∃ r n, t = s.complete r n) ∨ HiddenStep s t := by
  rcases busRead_next h with ⟨_, h⟩ | ⟨_, _, h⟩
  · exact .inl ⟨_, _, h⟩
  · exact .inr (h ▸ hk _)

theorem xformRead_ends {s t : State} {i : Nat} (h : s.xformRead i = .next t) :
    (∃ r n, t = s.complete r n) ∨ HiddenStep s t :=
  busRead_ends h fun _ => goto_hiddenStep s _

theorem macReadAd_ends {s t : State} {i : Nat} (h : s.macReadAd i = .next t) :
    (∃ r n, t = s.complete r n) ∨ HiddenStep s t := by
  rcases busRead_next h with ⟨_, h⟩ | ⟨_, _, h⟩
  · exact .inl ⟨_, _, h⟩
  · exact .inr ⟨_, h, rfl⟩

theorem macReadCt_ends {s t : State} {i : Nat} (h : s.macReadCt i = .next t) :
    (∃ r n, t = s.complete r n) ∨ HiddenStep s t := by
  rcases busRead_next h with ⟨_, h⟩ | ⟨_, _, h⟩
  · exact .inl ⟨_, _, h⟩
  · exact .inr ⟨_, h, rfl⟩

theorem tagRead_ends {s t : State} {i : Fin 16} (h : s.tagRead i = .next t) :
    (∃ r n, t = s.complete r n) ∨ HiddenStep s t := by
  rcases busRead_next h with ⟨_, h⟩ | ⟨_, _, h⟩
  · exact .inl ⟨_, _, h⟩
  · exact .inr ⟨_, h, rfl⟩

theorem xformWrite_ends {s t : State} {i : Nat} {y : Byte} (h : s.xformWrite i y = .next t) :
    (∃ r n, t = s.complete r n) ∨
      (memOk s.plat .write (s.outa + i) = true ∧ StoreStep s t (s.outa + i)) := by
  rcases busWrite_next h with ⟨_, h⟩ | ⟨hm, _, h⟩
  · exact .inl ⟨_, _, h⟩
  · exact .inr ⟨hm, _, _, h, rfl⟩

theorem tagWrite_ends {s t : State} {i : Fin 16} (h : s.tagWrite i = .next t) :
    (∃ r n, t = s.complete r n) ∨
      (memOk s.plat .write (s.outa + s.plen + i.val) = true ∧
        StoreStep s t (s.outa + s.plen + i.val)) := by
  rcases busWrite_next h with ⟨_, h⟩ | ⟨hm, _, h⟩
  · exact .inl ⟨_, _, h⟩
  · exact .inr ⟨hm, _, _, h, rfl⟩

theorem zeroWrite_ends {s t : State} {i : Nat} (h : s.zeroWrite i = .next t) :
    (∃ r n, t = s.complete r n) ∨
      (memOk s.plat .write (s.outa + i) = true ∧ StoreStep s t (s.outa + i)) := by
  rcases busWrite_next h with ⟨_, h⟩ | ⟨hm, _, h⟩
  · exact .inl ⟨_, _, h⟩
  · exact .inr ⟨hm, _, _, h, rfl⟩

theorem storeAddr_sealWrite {s : State} {j : Nat} {y : Byte} (hp : s.hid.pos = .xformWrite j y) :
    s.storeAddr .sealCmd = some (s.outa + j) := by
  unfold State.storeAddr State.nextAccess State.sealAccess
  simp only [hp]

theorem storeAddr_sealTag {s : State} {j : Nat} (hp : s.hid.pos = .tagWrite j) (hj : j < 16) :
    s.storeAddr .sealCmd = some (s.outa + s.plen + j) := by
  unfold State.storeAddr State.nextAccess State.sealAccess
  simp only [hp, hj, if_true]

theorem storeAddr_openWrite {s : State} {j : Nat} {y : Byte} (hp : s.hid.pos = .xformWrite j y) :
    s.storeAddr .openCmd = some (s.outa + j) := by
  unfold State.storeAddr State.nextAccess State.openAccess
  simp only [hp]

theorem storeAddr_openZero {s : State} {j : Nat} (hp : s.hid.pos = .zeroFill j) (hj : j < s.clen) :
    s.storeAddr .openCmd = some (s.outa + j) := by
  unfold State.storeAddr State.nextAccess State.openAccess
  simp only [hp, hj, if_true]

/-- Everything a step of a command can do: be issued while the engine is idle, complete, change hidden state
only, or store one byte at the address its stage computes. -/
theorem exec_next_cases {i : Instr} {s t : State} (h : exec i s = .next t) :
    (s.hid.pos = .idle ∧ t = s.issue i) ∨
      (s.hid.pos ≠ .idle ∧
        ((∃ r n, t = s.complete r n) ∨ HiddenStep s t ∨
          ∃ a, s.storeAddr i = some a ∧ memOk s.plat .write a = true ∧ StoreStep s t a)) := by
  cases i with
  | sealCmd =>
    simp only [exec, execSealCmd] at h
    split at h <;> rename_i hp
    · injection h with h
      exact .inl ⟨hp, h.symm⟩
    all_goals refine .inr ⟨by simp [hp], ?_⟩
    · injection h with h
      rcases checkStage_ends s s.sealFlaw with ⟨r, n, e⟩ | e
      · exact .inl ⟨r, n, h ▸ e⟩
      · exact .inr (.inl (h ▸ e))
    · injection h with h
      rcases keySched_ends s (.xformRead 0) with ⟨r, n, e⟩ | e
      · exact .inl ⟨r, n, h ▸ e⟩
      · exact .inr (.inl (h ▸ e))
    · split at h
      · rcases xformRead_ends h with e | e
        · exact .inl e
        · exact .inr (.inl e)
      · injection h with h
        exact .inr (.inl (h ▸ goto_hiddenStep s _))
    · rename_i j y
      rcases xformWrite_ends h with e | e
      · exact .inl e
      · exact .inr (.inr ⟨s.outa + j, storeAddr_sealWrite hp, e⟩)
    · split at h
      · rcases macReadAd_ends h with e | e
        · exact .inl e
        · exact .inr (.inl e)
      · injection h with h
        exact .inr (.inl (by subst h; exact ⟨_, rfl, rfl⟩))
    · injection h with h
      exact .inr (.inl (by subst h; exact ⟨_, rfl, rfl⟩))
    · split at h
      · rename_i hj
        rcases tagWrite_ends h with e | e
        · exact .inl e
        · exact .inr (.inr ⟨_, storeAddr_sealTag hp hj, e⟩)
      · injection h with h
        exact .inl ⟨_, _, h.symm⟩
    all_goals cases h
  | openCmd =>
    simp only [exec, execOpenCmd] at h
    split at h <;> rename_i hp
    · injection h with h
      exact .inl ⟨hp, h.symm⟩
    all_goals refine .inr ⟨by simp [hp], ?_⟩
    · injection h with h
      rcases checkStage_ends s s.openFlaw with ⟨r, n, e⟩ | e
      · exact .inl ⟨r, n, h ▸ e⟩
      · exact .inr (.inl (h ▸ e))
    · injection h with h
      rcases keySched_ends s (.macAd 0) with ⟨r, n, e⟩ | e
      · exact .inl ⟨r, n, h ▸ e⟩
      · exact .inr (.inl (h ▸ e))
    · split at h
      · rcases macReadAd_ends h with e | e
        · exact .inl e
        · exact .inr (.inl e)
      · injection h with h
        exact .inr (.inl (h ▸ goto_hiddenStep s _))
    · split at h
      · rcases macReadCt_ends h with e | e
        · exact .inl e
        · exact .inr (.inl e)
      · injection h with h
        exact .inr (.inl (by subst h; exact ⟨_, rfl, rfl⟩))
    · injection h with h
      exact .inr (.inl (by subst h; exact ⟨_, rfl, rfl⟩))
    · split at h
      · rcases tagRead_ends h with e | e
        · exact .inl e
        · exact .inr (.inl e)
      · injection h with h
        exact .inr (.inl (h ▸ goto_hiddenStep s _))
    · injection h with h
      exact .inr (.inl (by subst h; exact ⟨_, rfl, rfl⟩))
    · injection h with h
      exact .inr (.inl (h ▸ tagVerdict_hiddenStep s))
    · split at h
      · rcases xformRead_ends h with e | e
        · exact .inl e
        · exact .inr (.inl e)
      · injection h with h
        exact .inl ⟨_, _, h.symm⟩
    · rcases xformWrite_ends h with e | e
      · exact .inl e
      · exact .inr (.inr ⟨_, storeAddr_openWrite hp, e⟩)
    · split at h
      · rename_i hj
        rcases zeroWrite_ends h with e | e
        · exact .inl e
        · exact .inr (.inr ⟨_, storeAddr_openZero hp hj, e⟩)
      · injection h with h
        exact .inl ⟨_, _, h.symm⟩
    · cases h
  | badCmd w =>
    simp only [exec, execBadCmd] at h
    split at h <;> rename_i hp
    · injection h with h
      exact .inl ⟨hp, h.symm⟩
    · injection h with h
      exact .inr ⟨by simp [hp], .inl ⟨_, _, h.symm⟩⟩
    all_goals cases h

/-- What a register write does to the registers and hidden state does not depend on the rest of the state
but the reset input. -/
theorem regWrite_congr {s u : State} (hr : u.regs = s.regs) (hh : u.hid = s.hid)
    (hi : u.resetIn = s.resetIn) (r : RegName) (v : Word) :
    (u.regWrite r v).regs = (s.regWrite r v).regs ∧ (u.regWrite r v).hid = (s.regWrite r v).hid := by
  unfold State.regWrite
  rw [hi]
  cases s.resetIn with
  | true => exact ⟨hr, hh⟩
  | false =>
    simp only [Bool.false_eq_true, if_false]
    cases r <;>
      simp only [State.regWriteLive, State.guarded, State.cmdWrite, State.issue, State.ctrlWrite, hr] <;>
      (repeat' split) <;> simp [hr, hh]

/-- A register write leaves everything outside the registers and hidden state alone. -/
theorem regWrite_frame (s : State) (r : RegName) (v : Word) :
    (s.regWrite r v).mem = s.mem ∧ (s.regWrite r v).plat = s.plat ∧
      (s.regWrite r v).resetIn = s.resetIn ∧ (s.regWrite r v).turns = s.turns ∧
      (s.regWrite r v).script = s.script ∧ (s.regWrite r v).replies = s.replies := by
  rcases regWrite_cases s r v with h | h | h | ⟨_, _, _, h⟩ | h | h | ⟨_, _, _, _, _, _, _, _, _, h⟩ <;>
    rw [h] <;> simp

/-- A host write of a byte string below 2^32 keeps memory's canonical form over its image. -/
theorem hostWriteSeq_mem (s : State) (a : Nat) (bs : List Byte)
    (ha : bs.length ≠ 0 → a + bs.length ≤ Config.addrSpace) :
    (s.mem.wf → (s.hostWriteSeq a bs).mem.wf) ∧ (s.hostWriteSeq a bs).mem.image = s.mem.image := by
  induction bs generalizing s a with
  | nil => exact ⟨id, rfl⟩
  | cons b bs ih =>
    simp only [List.length_cons, ne_eq, Nat.add_one_ne_zero, not_false_eq_true, forall_const] at ha
    have g := ih (s.hostWriteByte a b) (a + 1) (fun _ => by omega)
    simp only [State.hostWriteSeq]
    rcases (hostWriteByte_frame s a b).2.2.2.2.2.2.2 with h | h
    · rw [h] at g
      exact g
    · rw [h] at g
      exact ⟨fun w => g.1 (write_wf w (by omega) b), g.2⟩

/-- A host memory statement that raises no fault lies below 2^32. -/
theorem hostFault_none {s : State} {a n : Nat} (h : s.hostFault a n = none) :
    (n ≠ 0 → a + n ≤ Config.addrSpace) ∧ s.races a n = false := by
  unfold State.hostFault at h
  split at h
  · cases h
  · split at h
    · cases h
    · rename_i h1 h2
      exact ⟨fun hn => by
        by_contra hc
        exact h1 ⟨hn, by omega⟩, by simpa using h2⟩

/-- What a step of the host leaves: the engine as it was or as a register write leaves it, memory in its
form over its image, the parameters, the reset input and the schedule as they were. -/
def HostEffect (s t : State) : Prop :=
  ((t.regs = s.regs ∧ t.hid = s.hid) ∨
      (t.mem = s.mem ∧
        ∃ r v, t.regs = (s.regWrite r v).regs ∧ t.hid = (s.regWrite r v).hid)) ∧
    ((s.mem.wf → t.mem.wf) ∧ t.mem.image = s.mem.image) ∧
    t.plat = s.plat ∧ t.resetIn = s.resetIn ∧ t.turns = s.turns

/-- Everything a step of the host can do. -/
theorem hostStep_next {s t : State} (h : s.hostStep = .next t) : HostEffect s t := by
  unfold State.hostStep at h
  split at h
  · injection h with h
    subst h
    exact ⟨.inl ⟨rfl, rfl⟩, ⟨id, rfl⟩, rfl, rfl, rfl⟩
  · rename_i st rest hs
    cases st with
    | wr off width v =>
      simp only [State.hostStmt] at h
      injection h with h
      subst h
      cases hr : portReg off width with
      | none =>
        rw [portWrite_none hr]
        exact ⟨.inl ⟨rfl, rfl⟩, ⟨id, rfl⟩, rfl, rfl, rfl⟩
      | some r =>
        rw [portWrite_reg hr]
        have hf := regWrite_frame { s with script := rest } r v
        have hc := regWrite_congr (s := s) (u := { s with script := rest }) rfl rfl rfl r v
        refine ⟨.inr ⟨hf.1, r, v, hc⟩, ?_, hf.2.1, hf.2.2.1, hf.2.2.2.1⟩
        rw [hf.1]
        exact ⟨id, rfl⟩
    | rd off width =>
      simp only [State.hostStmt] at h
      injection h with h
      subst h
      cases hr : portReg off width with
      | none =>
        rw [portRead_none hr]
        exact ⟨.inl ⟨rfl, rfl⟩, ⟨id, rfl⟩, rfl, rfl, rfl⟩
      | some r =>
        rw [portRead_reg hr]
        exact ⟨.inl ⟨rfl, rfl⟩, ⟨id, rfl⟩, rfl, rfl, rfl⟩
    | poll off mask v =>
      simp only [State.hostStmt] at h
      split at h
      · injection h with h
        subst h
        cases hr : portReg off .b32 with
        | none =>
          rw [portRead_none hr]
          exact ⟨.inl ⟨rfl, rfl⟩, ⟨id, rfl⟩, rfl, rfl, rfl⟩
        | some r =>
          rw [portRead_reg hr]
          exact ⟨.inl ⟨rfl, rfl⟩, ⟨id, rfl⟩, rfl, rfl, rfl⟩
      · split at h <;>
        · injection h with h
          subst h
          exact ⟨.inl ⟨rfl, rfl⟩, ⟨id, rfl⟩, rfl, rfl, rfl⟩
    | memWrite a bs =>
      simp only [State.hostStmt, State.hostMemWrite] at h
      split at h
      · cases h
      · rename_i hf
        injection h with h
        subst h
        have f := hostWriteSeq_frame { s with script := rest } a bs
        exact ⟨.inl ⟨f.1, f.2.1⟩, hostWriteSeq_mem { s with script := rest } a bs (hostFault_none hf).1, f.2.2.1, f.2.2.2.1,
          f.2.2.2.2.1⟩
    | memRead a n =>
      simp only [State.hostStmt, State.hostMemRead] at h
      split at h
      · cases h
      · injection h with h
        subst h
        have f := hostReadSeq_frame { s with script := rest } a n
        refine ⟨.inl ⟨f.1, f.2.1⟩, ?_, f.2.2.2.1, f.2.2.2.2.1, f.2.2.2.2.2.1⟩
        have hm : (State.hostReadSeq { s with script := rest } a n).2.mem = s.mem := f.2.2.1
        show (s.mem.wf → (State.hostReadSeq { s with script := rest } a n).2.mem.wf) ∧
          (State.hostReadSeq { s with script := rest } a n).2.mem.image = s.mem.image
        rw [hm]
        exact ⟨id, rfl⟩
    | invalidate a n =>
      simp only [State.hostStmt] at h
      injection h with h
      subst h
      exact ⟨.inl ⟨rfl, rfl⟩, ⟨id, rfl⟩, rfl, rfl, rfl⟩

/-- Everything a step of the machine can do: a step of the running command, a step of the host, nothing,
or a move of the reset input, from the state with its turn taken off the schedule. -/
theorem step_next_cases {s t : State} (h : step s = .next t) :
    ∃ u : State, (u = s ∨ ∃ c ts, s.turns = c :: ts ∧ u = { s with turns := ts }) ∧
      ((∃ i, s.hid.op = some i ∧ exec i u = .next t) ∨ HostEffect u t ∨
        t = { u.resetEngine with resetIn := true } ∨ t = { u with resetIn := false }) := by
  have engine (u : State) (hu : u.hid = s.hid) (h : u.engineStep = .next t) :
      (∃ i, s.hid.op = some i ∧ exec i u = .next t) ∨ HostEffect u t := by
    unfold State.engineStep at h
    split at h
    · rename_i i ho
      exact .inl ⟨i, hu ▸ ho, h⟩
    · injection h with h
      subst h
      exact .inr ⟨.inl ⟨rfl, rfl⟩, ⟨id, rfl⟩, rfl, rfl, rfl⟩
  unfold step State.advance at h
  split at h
  · refine ⟨s, .inl rfl, ?_⟩
    unfold State.defaultTurn at h
    split at h
    · rcases engine s rfl h with e | e
      · exact .inl e
      · exact .inr (.inl e)
    · exact .inr (.inl (hostStep_next h))
  · rename_i c ts hts
    refine ⟨{ s with turns := ts }, .inr ⟨c, ts, hts, rfl⟩, ?_⟩
    cases c with
    | engine =>
      rcases engine { s with turns := ts } rfl h with e | e
      · exact .inl e
      · exact .inr (.inl e)
    | host => exact .inr (.inl (hostStep_next h))
    | assertReset =>
      simp only [State.move] at h
      injection h with h
      exact .inr (.inr (.inl h.symm))
    | releaseReset =>
      simp only [State.move] at h
      injection h with h
      exact .inr (.inr (.inr h.symm))

end Sys2Proof.Machine
end

