-- ==== Sys2Proof/Laws/PerInstr.lean ====
section
/-! SUPPORT. Per-instruction facts: the word of a well-formed command belongs to its own row of the opcode
table and to no earlier one. -/

namespace Sys2Proof.Laws.TableRow

/-- The first row the word of `i` meets is the row of `i`. -/
def Statement (i : Instr) : Prop :=
  i.wf = true → (opcodeRow (encode i)).map OpcodeRow.mnemonic = some i.mnemonic

theorem sealCmd : Statement .sealCmd := fun _ => by decide

theorem openCmd : Statement .openCmd := fun _ => by decide

theorem badCmd (w : Word) : Statement (.badCmd w) := by
  intro h
  simp only [Instr.wf, Bool.and_eq_true, bne_iff_ne, ne_eq] at h
  have hm : w &&& 0xFFFFFFFF#32 = w := by
    have : (0xFFFFFFFF#32) = BitVec.allOnes 32 := by decide
    rw [this, BitVec.and_allOnes]
  have h1 : ¬w = 1#32 := h.1
  have h2 : ¬w = 2#32 := h.2
  simp [opcodeRow, opcodeRows, encode, Instr.mnemonic, hm, h1, h2]

end Sys2Proof.Laws.TableRow
end

