-- ==== Sys2Proof/Tests/Slice0.lean ====
section
/-! SUPPORT. Tests of the model against the spec's worked examples (95_test_vectors.md), and a witness for the
hypotheses of every obligation. -/

namespace Sys2Proof.Tests

open Sys2Proof.Machine

/-! ## Helpers -/

/-- The state an outcome answers, if it answers one. -/
def out (o : Out) : Option State :=
  match o with
  | .next t => some t
  | .fault _ => none
  | .refused _ => none

/-- Whether an outcome is a refusal for a device region. -/
def deviceRefused (o : Out) : Bool :=
  match o with
  | .next _ => false
  | .fault _ => false
  | .refused r => r == .deviceBuffer

/-- The reset state with the five operand registers given. -/
def ops (ina inl ada adl outa : Word) : State :=
  { State.reset with
    regs := { Regs.reset with
      inAddr := ina, inLen := inl, adAddr := ada, adLen := adl, outAddr := outa } }

/-- `s` with a command running at a position. -/
def at_ (s : State) (i : Instr) (p : Pos) : State :=
  { s with
    regs := { s.regs with busy := true }
    hid := { s.hid with op := some i, pos := p } }

/-- `s` with the host to issue `st`. -/
def scripted (s : State) (st : List HostStmt) : State := { s with script := st }

/-- `s` on a platform with a no-access region at 0x7000 and a device at 0x8000. -/
def guardedPlat (s : State) : State :=
  { s with plat := { s.plat with regions := [⟨0x7000, 0x10, .noAccess⟩, ⟨0x8000, 0x10, .device⟩] } }

/-- `s` in the fatal lock after an OVERLAP. -/
def locked (s : State) : State :=
  { s with regs := { s.regs with fatal := true, result := .overlap, done := true } }

/-- A word of the spec's bit pattern: RSVD, then OP. -/
def cmdWord (rsvd : BitVec 28) (op : BitVec 4) : Word := rsvd ++ op

/-! ## Well-formedness and decoding -/

/-- Well-formedness refuses a reserved command that carries SEAL's or OPEN's word. -/
theorem test_wf_refuses_seal_word : (Instr.badCmd 0x00000001).wf = false := by decide

theorem test_wf_refuses_open_word : (Instr.badCmd 0x00000002).wf = false := by decide

theorem test_wf_accepts : (Instr.badCmd 0x00000011).wf = true := by decide

/-- SEAL is 28 zero bits and then 0001 (R90, R92). -/
theorem test_decode_seal_bits :
    decode 0b00000000000000000000000000000001#32 = .sealCmd := by decide

/-- OPEN is 28 zero bits and then 0010 (R90, R92). -/
theorem test_decode_open_bits :
    decode 0b00000000000000000000000000000010#32 = .openCmd := by decide

/-- OP = 1 with RSVD = 1 is BAD_CMD (R164). -/
theorem test_decode_badCmd_rsvd_bits :
    decode 0b00000000000000000000000000010001#32 = .badCmd 0x11 := by decide

/-- OP = 1 with the top bit of RSVD set is BAD_CMD (95_test_vectors.md §2.6). -/
theorem test_decode_badCmd_top_bit :
    decode 0b10000000000000000000000000000001#32 = .badCmd 0x80000001 := by decide

theorem test_decode_reserved_ops :
    ∀ op : BitVec 4, op ≠ 1 → op ≠ 2 → decode (cmdWord 0 op) = .badCmd (cmdWord 0 op) := by decide

theorem test_encode_seal : encode .sealCmd = 0x00000001 := by decide

theorem test_encode_open : encode .openCmd = 0x00000002 := by decide

theorem test_table_word_seal : decodeTableWord 32 1 = some .sealCmd := by decide

theorem test_table_word_bad : decodeTableWord 32 0 = some (.badCmd 0) := by decide

/-- A number of more than 32 bits is no command word (R90). -/
theorem test_table_word_too_long : decodeTableWord 64 0x100000001 = none := by decide

theorem test_table_rows_agree :
    (opcodeRow 0x00000002).map OpcodeRow.mnemonic = some "OPEN" ∧
      (opcodeRow 0x80000001).map OpcodeRow.mnemonic = some "BAD_CMD" := by decide

/-- A command placed for the next step is accepted, and the next step runs its CHECK. -/
theorem test_placed_badCmd_runs :
    (out (step (State.reset.withFetchWord 32 3))).map (fun t => t.regs.statusWord) = some 0x202 := by
  decide

theorem test_placed_open_runs :
    (out (step (State.reset.withFetchWord 32 2))).map (fun t => t.regs.statusWord) = some 0x102 := by
  decide

/-! ## Registers, the MAC input and the collaborators -/

/-- N[1] of 95_test_vectors.md KR: byte 1 of NONCE1 = 0x43424140 is 0x41 (R34). -/
theorem test_nonce_packing :
    State.nonceBytes { State.reset with regs := { Regs.reset with
      nonce := #v[0x00000007, 0x43424140, 0x47464544] } } =
      #v[0x07, 0, 0, 0, 0x40, 0x41, 0x42, 0x43, 0x44, 0x45, 0x46, 0x47] := by decide

/-- KEY0 of K1 holds key bytes 00 01 02 03 (95_test_vectors.md). -/
theorem test_key_packing :
    (State.keyBytes { State.reset with regs := { Regs.reset with
      key := (Vector.replicate 8 0).set 0 0x03020100 } }).toList.take 5 = [0, 1, 2, 3, 0] := by decide

/-- KEY0 of K1 is 0x03020100 (95_test_vectors.md). -/
theorem test_packWord : packWord 0x00 0x01 0x02 0x03 = 0x03020100 := by decide

/-- The STATUS words of R26 and R207. -/
theorem test_status_words :
    (State.reset.complete .authFail 0).regs.statusWord = 0x102 ∧
    (State.reset.complete .overlap 0).regs.statusWord = 0x806 ∧
    (State.reset.complete .busErr 0).regs.statusWord = 0xB06 ∧
    (State.reset.accept .sealCmd).regs.statusWord = 0x001 ∧
    (State.reset.ignore.complete .ok 16).regs.statusWord = 0x00A := by decide

/-- 95_test_vectors.md §2.3, row 4. -/
theorem test_macInput :
    macInput [0x68, 0x64, 0x72] [0, 1, 2, 3, 4] =
      [0x68, 0x64, 0x72] ++ List.replicate 13 0 ++ [0, 1, 2, 3, 4] ++ List.replicate 11 0 ++
        [3, 0, 0, 0, 0, 0, 0, 0, 5, 0, 0, 0, 0, 0, 0, 0] := by decide

/-- 95_test_vectors.md §1.1, lengths 15 and 17. -/
theorem test_macInput_length :
    (macInput (List.replicate 15 1) (List.replicate 17 1)).length = 64 := by decide

/-- The quarter round of RFC 8439 §2.1.1. -/
theorem test_quarterRound :
    (quarterRound ((((Vector.replicate 16 (0 : Word)).set 0 0x11111111).set 1 0x01020304
      |>.set 2 0x9b8d6f43).set 3 0x01234567) 0 1 2 3).toList.take 4 =
      [0xea2a92f4, 0xcb1cf8ce, 0x4581472e, 0x5881c4bb] := by decide

/-- OTK of the zero key and nonce begins 76b8e0ad (95_test_vectors.md §2.1). -/
theorem test_otk_zero :
    let b := chachaBlock (Vector.replicate 32 0) (Vector.replicate 12 0) 0
    b[0] = 0x76 ∧ b[1] = 0xb8 ∧ b[2] = 0xe0 ∧ b[3] = 0xad := by decide +kernel

/-- Poly1305 of "Cryptographic Forum Research Group" (R186). -/
theorem test_poly1305 :
    poly1305
      #v[0x85, 0xd6, 0xbe, 0x78, 0x57, 0x55, 0x6d, 0x33, 0x7f, 0x44, 0x52, 0xfe, 0x42, 0xd5, 0x06, 0xa8,
        0x01, 0x03, 0x80, 0x8a, 0xfb, 0x0d, 0xb2, 0xfd, 0x4a, 0xbf, 0xf6, 0xaf, 0x41, 0x49, 0xf5, 0x1b]
      [0x43, 0x72, 0x79, 0x70, 0x74, 0x6f, 0x67, 0x72, 0x61, 0x70, 0x68, 0x69, 0x63, 0x20, 0x46, 0x6f,
        0x72, 0x75, 0x6d, 0x20, 0x52, 0x65, 0x73, 0x65, 0x61, 0x72, 0x63, 0x68, 0x20, 0x47, 0x72, 0x6f,
        0x75, 0x70] =
      #v[0xa8, 0x06, 0x1d, 0xc1, 0x30, 0x51, 0x36, 0xc6, 0xc2, 0x2b, 0x8b, 0xaf, 0x0c, 0x01, 0x27, 0xa9] := by
  decide +kernel

/-! ## One step of each command -/

/-- 95_test_vectors.md §2.5, row 1: an inexact overlap is OVERLAP. -/
theorem test_seal_overlap :
    (out (exec .sealCmd (at_ (ops 0x1000 32 0x2000 0 0x1010) .sealCmd .check))).map
      (fun t => t.regs.statusWord) = some 0x806 := by decide

/-- The tag's byte 15 goes to OUTA + PLEN + 15 (R141). -/
theorem test_seal_tag_write :
    (out (exec .sealCmd
      { at_ (ops 0x1000 2 0 0 0x3000) .sealCmd (.tagWrite 15) with
        hid := { Hidden.zero with
          op := some .sealCmd, pos := .tagWrite 15, etag := (Vector.replicate 16 0).set 15 0xd1 } })).map
      (fun t => t.mem.cells) = some [(0x3011, 0xd1)] := by decide

/-- OPEN of fewer than 16 bytes is AUTH_FAIL, not fatal (95_test_vectors.md §2.4.1, row 6). -/
theorem test_open_short :
    (out (exec .openCmd (at_ (ops 0x4000 15 0x2000 17 0x5000) .openCmd .check))).map
      (fun t => t.regs.statusWord) = some 0x102 := by decide

/-- Tags that differ in bit 0 of byte 15 give DIFF = 0x01 (R143). -/
theorem test_open_diff :
    tagDiff ((Vector.replicate 16 0).set 15 0xd1) ((Vector.replicate 16 0).set 15 0xd0) = 0x01 := by decide

/-- `wr32 CMD, 0x3` completes with STATUS = 0x202 (R164). -/
theorem test_badCmd_completes :
    (out (exec (.badCmd 3) (at_ State.reset (.badCmd 3) .check))).map
      (fun t => t.regs.statusWord) = some 0x202 := by decide

/-- A reserved command under the fatal lock is ignored with IGN (R214). -/
theorem test_badCmd_locked :
    (out (exec (.badCmd 3) (locked State.reset))).map (fun t => t.regs.statusWord) = some 0x80E := by
  decide

/-! ## Witnesses: encoding and the step -/

theorem witness_DecodeEncodeAgree : (Instr.badCmd 0x80000001).wf = true := by decide

theorem witness_StepRunsTheRunningCommand :
    let s := at_ State.reset .sealCmd .check
    let u : State := { s with turns := [.engine, .host] }
    (s.regs.busy = true ∧ s.hid.op = some .sealCmd ∧ s.turns = []) ∧
      u.regs.busy = true ∧ u.hid.op = some .sealCmd ∧ u.turns = .engine :: [.host] := by decide

theorem witness_CmdWriteRunsTheDecodedWord :
    let s := scripted State.reset [.wr 0x0C .b32 0x1]
    s.Inv ∧ s.regs.busy = false ∧ s.resetIn = false ∧ s.turns = [] ∧
      s.script = .wr 0x0C .b32 0x1 :: [] := by decide

theorem witness_IdleEngineAcceptsOrIgnores :
    State.reset.hid.pos = .idle ∧ State.reset.regs.fatal = false ∧
      (locked State.reset).hid.pos = .idle ∧ (locked State.reset).regs.fatal = true := by decide

/-! ## Witnesses: registers -/

theorem witness_WritesWhileBusyAreIgnored :
    let s := at_ State.reset .sealCmd .check
    let u := locked State.reset
    s.resetIn = false ∧ s.regs.busy = true ∧ (0x1 : Word)[1] = false ∧ (0x2 : Word)[1] = true ∧
      u.resetIn = false ∧ u.regs.busy = false ∧ u.regs.fatal = true := by decide

theorem witness_OperandWritesStoreTheWord :
    State.reset.resetIn = false ∧ State.reset.regs.busy = false := by decide

theorem witness_CtrlWriteEffect :
    State.reset.resetIn = false ∧ (0x3 : Word)[1] = true ∧ (0x1 : Word)[1] = false := by decide

theorem witness_StatusWriteEffect :
    State.reset.resetIn = false ∧ (0xA : Word)[1] = true ∧ (0x8 : Word)[1] = false := by decide

/-- Both ends of both reserved ranges. -/
theorem witness_ReservedOffsetsReadZero :
    ∀ off : BitVec 8, off = 0x2C ∨ off = 0x3C ∨ off = 0x6C ∨ off = 0xFC →
      off.toNat % 4 = 0 ∧ ((0x2C ≤ off.toNat ∧ off.toNat < 0x40) ∨ 0x6C ≤ off.toNat) := by decide

theorem witness_RegisterMapOffsets :
    regAt 0x68 = some (.nonce 2) ∧ (RegName.nonce 2) ≠ .reserved := by decide

theorem witness_MalformedAccessTouchesNothing :
    (Width.b8 ≠ .b32 ∨ (0x10 : BitVec 8).toNat % 4 ≠ 0) ∧
      (Width.b32 ≠ .b32 ∨ (0xFF : BitVec 8).toNat % 4 ≠ 0) := by decide

/-- A misaligned read gets the error response and returns 0 (R21). -/
theorem test_malformed_read :
    (State.reset.portRead 0x12 .b32).replies = [.readError 0] ∧
      (State.reset.portWrite 0x12 .b32 5).replies = [.error] := by decide

theorem witness_IrqIsTheLevel :
    (locked State.reset).regs.done = true ∧ (0x1 : Word)[1] = false ∧
      (0x0 : Word)[0] = false ∧ (0x0 : Word)[1] = false ∧ (0x2 : Word)[1] = true := by decide

theorem witness_ReadsRevealNoSecret :
    let t : State := { State.reset with regs := { Regs.reset with key := Vector.replicate 8 7 } }
    { t.regs with key := State.reset.regs.key } = State.reset.regs ∧ t.regs ≠ State.reset.regs := by
  decide

/-! ## Witnesses: the stages -/

/-- The longest PLEN that is in range, and the shortest that is not (R153). -/
theorem witness_SealCheckOutcome_bad :
    let s := at_ (ops 0 0xFFFFFFF0 0 0 0) .sealCmd .check
    let u := at_ (ops 0 0xFFFFFFEF 0 0 0) .sealCmd .check
    s.hid.pos = .check ∧ s.plen > 2 ^ 32 - 17 ∧
      u.hid.pos = .check ∧ ¬(u.plen > 2 ^ 32 - 17 ∨ u.ada + u.adl > 2 ^ 32 ∨ u.ina + u.plen > 2 ^ 32 ∨
        u.outa + (u.plen + 16) > 2 ^ 32) ∧ u.outa = u.ina := by decide

/-- 95_test_vectors.md §2.5, rows 6 and 4: one shared byte, and adjacent regions. -/
theorem witness_SealCheckOutcome_overlap :
    let s := at_ (ops 0x102F 32 0 0 0x1000) .sealCmd .check
    let u := at_ (ops 0x1000 32 0x2000 0 0x1020) .sealCmd .check
    s.hid.pos = .check ∧ ¬(s.plen > 2 ^ 32 - 17 ∨ s.ada + s.adl > 2 ^ 32 ∨ s.ina + s.plen > 2 ^ 32 ∨
        s.outa + (s.plen + 16) > 2 ^ 32) ∧
      (s.outa ≠ s.ina ∧ ∃ x, (s.outa ≤ x ∧ x < s.outa + (s.plen + 16)) ∧
        (s.ina ≤ x ∧ x < s.ina + s.plen)) ∧
      u.hid.pos = .check ∧ ¬(u.outa ≠ u.ina ∧ ∃ x, (u.outa ≤ x ∧ x < u.outa + (u.plen + 16)) ∧
        (u.ina ≤ x ∧ x < u.ina + u.plen)) := by
  refine ⟨by decide, by decide, ⟨by decide, 0x102F, by decide, by decide⟩, by decide, ?_⟩
  rintro ⟨-, x, ⟨h1, -⟩, -, h2⟩
  have h1 : 0x1020 ≤ x := h1
  have h2 : x < 0x1000 + 32 := h2
  omega

/-- Inputs of 15 and 16 bytes, a range flaw, and 95_test_vectors.md §2.5, rows 12 and 13. -/
theorem witness_OpenCheckOutcome :
    let short := at_ (ops 0 15 0 0 0) .openCmd .check
    let least := at_ (ops 0 16 0 0 0) .openCmd .check
    let far := at_ (ops 0 16 0xFFFFFFFF 2 0) .openCmd .check
    let lap := at_ (ops 0x1000 48 0 0 0x1008) .openCmd .check
    (short.hid.pos = .check ∧ short.regs.fatal = false ∧ short.inl < 16) ∧
    (least.hid.pos = .check ∧ 16 ≤ least.inl ∧
      ¬(least.ada + least.adl > 2 ^ 32 ∨ least.ina + least.inl > 2 ^ 32 ∨
        least.outa + least.clen > 2 ^ 32) ∧ least.outa = least.ina) ∧
    (far.hid.pos = .check ∧ 16 ≤ far.inl ∧ far.ada + far.adl > 2 ^ 32) ∧
    (lap.hid.pos = .check ∧ 16 ≤ lap.inl ∧
      ¬(lap.ada + lap.adl > 2 ^ 32 ∨ lap.ina + lap.inl > 2 ^ 32 ∨ lap.outa + lap.clen > 2 ^ 32) ∧
      lap.outa ≠ lap.ina ∧ ∃ x, (lap.outa ≤ x ∧ x < lap.outa + lap.clen) ∧
        (lap.ina ≤ x ∧ x < lap.ina + lap.clen)) := by
  refine ⟨by decide, by decide, by decide, by decide, by decide, by decide, by decide, 0x1008, by decide,
    by decide⟩

/-- A state in KEYSCHED whose collaborator accepts, and one whose collaborator refuses. -/
theorem witness_KeyScheduleOutcome :
    let s := at_ State.reset .sealCmd .keySched
    let u : State := { s with plat := { s.plat with refuses := [(s.keyBytes, s.nonceBytes)] } }
    s.hid.pos = .keySched ∧ ksInitOk s.plat s.keyBytes s.nonceBytes = true ∧
      u.hid.pos = .keySched ∧ ksInitOk u.plat u.keyBytes u.nonceBytes = false := by decide

/-- SEAL and OPEN at their first and past their last payload byte (PLEN = 18, CLEN = 2). -/
theorem witness_TransformSteps :
    let s (p : Pos) := at_ (ops 0x1000 18 0 0 0x3000) .sealCmd p
    ((s (.xformRead 0)).hid.pos = .xformRead 0 ∧
      memOk (s (.xformRead 0)).plat .read ((s (.xformRead 0)).ina + 0) = true ∧
      isDevice (s (.xformRead 0)).plat ((s (.xformRead 0)).ina + 0) = false ∧
      0 < (s (.xformRead 0)).plen ∧ 0 < (s (.xformRead 0)).clen) ∧
    ((s (.xformWrite 17 5)).hid.pos = .xformWrite 17 5 ∧
      memOk (s (.xformWrite 17 5)).plat .write ((s (.xformWrite 17 5)).outa + 17) = true ∧
      isDevice (s (.xformWrite 17 5)).plat ((s (.xformWrite 17 5)).outa + 17) = false) ∧
    ((s (.xformRead 18)).hid.pos = .xformRead 18 ∧ (s (.xformRead 18)).plen ≤ 18) := by decide

theorem witness_MacBuildSteps :
    let s (p : Pos) := at_ (ops 0x1000 17 0x2000 1 0x3000) .openCmd p
    ((s (.macAd 0)).hid.pos = .macAd 0 ∧ 0 < (s (.macAd 0)).adl ∧
      memOk (s (.macAd 0)).plat .read ((s (.macAd 0)).ada + 0) = true ∧
      isDevice (s (.macAd 0)).plat ((s (.macAd 0)).ada + 0) = false) ∧
    ((s (.macAd 1)).hid.pos = .macAd 1 ∧ (s (.macAd 1)).adl ≤ 1) ∧
    ((s (.macCt 0)).hid.pos = .macCt 0 ∧ 0 < (s (.macCt 0)).clen ∧
      memOk (s (.macCt 0)).plat .read ((s (.macCt 0)).ina + 0) = true ∧
      isDevice (s (.macCt 0)).plat ((s (.macCt 0)).ina + 0) = false) ∧
    ((s (.macCt 1)).hid.pos = .macCt 1 ∧ (s (.macCt 1)).clen ≤ 1) := by decide

/-- The tag's first and last byte. -/
theorem witness_TagComputeAndAppend :
    let s (p : Pos) := at_ (ops 0x1000 1 0 0 0x3000) .sealCmd p
    (s .tagCompute).hid.pos = .tagCompute ∧
      ∀ j : Fin 16, j = 0 ∨ j = 15 → (s (.tagWrite j.val)).hid.pos = .tagWrite j.val ∧
        memOk (s (.tagWrite j.val)).plat .write
          ((s (.tagWrite j.val)).outa + (s (.tagWrite j.val)).plen + j.val) = true ∧
        isDevice (s (.tagWrite j.val)).plat
          ((s (.tagWrite j.val)).outa + (s (.tagWrite j.val)).plen + j.val) = false := by decide

theorem witness_TagVerifySteps :
    let s (p : Pos) := at_ (ops 0x1000 17 0 0 0x3000) .openCmd p
    (s .tagCompute).hid.pos = .tagCompute ∧
      (∀ j : Fin 16, j = 0 ∨ j = 15 → (s (.tagRead j.val)).hid.pos = .tagRead j.val ∧
        memOk (s (.tagRead j.val)).plat .read
          ((s (.tagRead j.val)).ina + (s (.tagRead j.val)).clen + j.val) = true ∧
        isDevice (s (.tagRead j.val)).plat
          ((s (.tagRead j.val)).ina + (s (.tagRead j.val)).clen + j.val) = false) ∧
      (s (.tagRead 16)).hid.pos = .tagRead 16 ∧ (s .tagCompare).hid.pos = .tagCompare ∧
      (s .tagVerdict).hid.pos = .tagVerdict := by decide

theorem witness_ZeroFillSteps :
    let s (j : Nat) := at_ (ops 0x1000 18 0 0 0x3000) .openCmd (.zeroFill j)
    ((s 1).hid.pos = .zeroFill 1 ∧ 1 < (s 1).clen ∧ memOk (s 1).plat .write ((s 1).outa + 1) = true ∧
      isDevice (s 1).plat ((s 1).outa + 1) = false) ∧
      (s 2).hid.pos = .zeroFill 2 ∧ (s 2).clen ≤ 2 := by decide

/-- The longest SEAL (R153). -/
theorem witness_SealCompletesOk :
    let s := at_ (ops 0 0xFFFFFFEF 0 0 0) .sealCmd (.tagWrite 16)
    s.hid.pos = .tagWrite 16 ∧ 16 ≤ 16 ∧ s.plen ≤ 2 ^ 32 - 17 ∧ s.regs.fatal = false ∧
      s.regs.ign = false := by decide

/-- OPEN of 16 bytes, which has no plaintext. -/
theorem witness_OpenCompletesOk :
    let s := at_ (ops 0x1000 16 0 0 0x3000) .openCmd (.xformRead 0)
    s.hid.pos = .xformRead 0 ∧ s.clen ≤ 0 ∧ s.regs.fatal = false ∧ s.regs.ign = false := by decide

theorem witness_BadCmdCompletes :
    let s := at_ State.reset (.badCmd 3) .check
    s.hid.pos = .check ∧ s.regs.fatal = false ∧ s.regs.ign = false := by decide

theorem witness_CompletionReport :
    (at_ State.reset .sealCmd .check).regs.fatal = false := by decide

/-- A read of a byte MEM_OK refuses, and a write to a device. -/
theorem witness_FailedAccessStopsTheCommand :
    let s := guardedPlat (at_ (ops 0x7000 1 0 0 0x8000) .sealCmd (.xformRead 0))
    let u := guardedPlat (at_ (ops 0x7000 1 0 0 0x8000) .sealCmd (.xformWrite 0 0))
    s.nextAccess .sealCmd = some (.read, 0x7000) ∧ memOk s.plat .read 0x7000 = false ∧
      u.nextAccess .sealCmd = some (.write, 0x8000) ∧ memOk u.plat .write 0x8000 = true ∧
      isDevice u.plat 0x8000 = true := by decide

/-- The first and the last byte of the window. -/
theorem witness_OwnWindowIsABusError :
    let s (x : Word) := at_ (ops x 1 0 0 0x3000) .sealCmd (.xformRead 0)
    ∀ x : Word, x = 0xF0000000 ∨ x = 0xF00000FF →
      (s x).plat.csrBase.toNat ≤ x.toNat ∧ x.toNat < (s x).plat.csrBase.toNat + 0x100 ∧
        (s x).nextAccess .sealCmd = some (.read, x.toNat) := by
  rintro s x (rfl | rfl) <;> decide

/-- An access to the device of the platform is refused by name. -/
theorem test_device_refused :
    deviceRefused (exec .sealCmd
      (guardedPlat (at_ (ops 0x7000 1 0 0 0x8000) .sealCmd (.xformWrite 0 0)))) = true := by decide

/-! ## Witnesses: frames and invariants -/

/-- A SEAL of no bytes, just accepted. -/
def tinySeal : State := (ops 0x1000 0 0x2000 0 0x3000).accept .sealCmd

theorem witness_CommandFrame : ∃ t, exec .sealCmd tinySeal = .next t := ⟨_, rfl⟩

/-- A storing step and one that stores nothing. -/
theorem witness_CommandMemoryFrame :
    let s := at_ (ops 0x1000 1 0 0 0x3000) .sealCmd (.xformWrite 0 5)
    (∃ t, exec .sealCmd s = .next t) ∧ s.storeAddr .sealCmd = some 0x3000 ∧
      (∃ t, exec .sealCmd tinySeal = .next t) ∧ tinySeal.storeAddr .sealCmd = none :=
  ⟨⟨_, rfl⟩, rfl, ⟨_, rfl⟩, rfl⟩

theorem witness_StatusChangesOnlyAtTheEnds :
    tinySeal.hid.pos ≠ .idle ∧ ∃ t, exec .sealCmd tinySeal = .next t := ⟨by decide, _, rfl⟩

/-- A SEAL of one byte, past its key schedule. -/
def keyedSeal : State :=
  { at_ (ops 0x1000 1 0x2000 0 0x3000) .sealCmd (.xformRead 0) with
    hid := { Hidden.zero with
      op := some .sealCmd, pos := .xformRead 0, kspos := 64
      otk := deriveOtk Platform.default (Vector.replicate 32 0) (Vector.replicate 12 0) } }

theorem witness_keyedSeal_stageData : keyedSeal.StageData := by
  refine ⟨⟨by decide, by decide, ?_⟩, by decide, rfl, rfl, by decide, fun _ => ⟨rfl, rfl⟩⟩
  have hk : keyedSeal.keyBytes = Vector.replicate 32 0 := by decide
  have hn : keyedSeal.nonceBytes = Vector.replicate 12 0 := by decide
  rw [hk, hn]
  rfl

theorem witness_EngineStaysInItsRegions :
    keyedSeal.Inv ∧ keyedSeal.StageData ∧ keyedSeal.regs.busy = true ∧
      keyedSeal.hid.op = some .sealCmd ∧
      keyedSeal.nextAccess .sealCmd = some (.read, 0x1000) :=
  ⟨by decide, witness_keyedSeal_stageData, rfl, rfl, rfl⟩

theorem witness_IdleEngineHoldsNoSecret :
    tinySeal.Quiet ∧ (∃ t, step tinySeal = .next t) ∧ State.reset.Quiet ∧
      State.reset.regs.busy = false := ⟨by decide, ⟨_, rfl⟩, by decide, rfl⟩

theorem witness_StepKeepsTheControlInvariant :
    tinySeal.Inv ∧ ∃ t, step tinySeal = .next t := ⟨by decide, _, rfl⟩

theorem witness_StepKeepsTheStageData :
    tinySeal.Inv ∧ tinySeal.StageData ∧ ∃ t, step tinySeal = .next t := ⟨by decide, rfl, _, rfl⟩

/-- A host write of one byte. -/
theorem witness_StepKeepsTheMemoryForm :
    let s := scripted State.reset [.memWrite 0x1000 [1]]
    s.mem.wf ∧ ∃ t, step s = .next t := ⟨by decide, _, rfl⟩

theorem witness_ParametersNeverChange : ∃ t, step tinySeal = .next t := ⟨_, rfl⟩

theorem witness_PhaseOnlyAdvances :
    tinySeal.hid.pos.fits .sealCmd = true ∧ (∃ t, exec .sealCmd tinySeal = .next t) ∧ tinySeal.Inv :=
  ⟨by decide, ⟨_, rfl⟩, by decide⟩

theorem witness_FatalLockHoldsUntilReset :
    let s := scripted (locked State.reset) [.wr 0x0C .b32 0x1]
    s.Inv ∧ s.regs.fatal = true ∧ s.resetIn = false ∧ ∃ t, step s = .next t :=
  ⟨by decide, rfl, rfl, _, rfl⟩

/-- The expected tag of an OPEN of one ciphertext byte 9 with AD byte 7, zero key and nonce. -/
def oneTag : Tag :=
  macTag Platform.default
    (deriveOtk Platform.default (Vector.replicate 32 0) (Vector.replicate 12 0)) (macInput [7] [9])

/-- An OPEN of one ciphertext byte whose tag has been found valid, before its plaintext byte is written. -/
def verifiedOpen : State :=
  { at_ (ops 0x1000 17 0x2000 1 0x3000) .openCmd (.xformWrite 0 3) with
    hid := { Hidden.zero with
      op := some .openCmd, pos := .xformWrite 0 3, kspos := 64
      otk := deriveOtk Platform.default (Vector.replicate 32 0) (Vector.replicate 12 0)
      adBytes := [7], ctBytes := [9], macbuf := macInput [7] [9], etag := oneTag, ctag := oneTag } }

theorem tagDiff_self (t : Tag) : tagDiff t t = 0 := by
  simp [tagDiff]

theorem witness_verifiedOpen_verified : verifiedOpen.Verified := by
  refine ⟨rfl, ?_, ?_, rfl⟩
  · show (0 : Byte) = tagDiff oneTag oneTag
    exact (tagDiff_self oneTag).symm
  · show oneTag = _
    unfold oneTag
    rfl

theorem witness_verifiedOpen_keyed : verifiedOpen.Keyed := by
  have hk : verifiedOpen.keyBytes = Vector.replicate 32 0 := by decide
  have hn : verifiedOpen.nonceBytes = Vector.replicate 12 0 := by decide
  refine ⟨by decide, by decide, ?_⟩
  rw [hk, hn]
  rfl

theorem witness_NoUnverifiedPlaintext :
    verifiedOpen.Inv ∧ verifiedOpen.StageData ∧ verifiedOpen.hid.op = some .openCmd ∧
      verifiedOpen.hid.pos = .xformWrite 0 3 := by
  refine ⟨⟨fun h => (Bool.noConfusion h), fun _ => ⟨rfl, rfl, rfl, rfl, rfl⟩, rfl, fun _ => rfl,
    fun h => (Bool.noConfusion h)⟩, ?_, rfl, rfl⟩
  exact ⟨witness_verifiedOpen_keyed, fun _ => witness_verifiedOpen_verified, rfl, rfl, by decide,
    fun h => (by cases h)⟩

/-! ## Witnesses: the host and reset -/

theorem witness_HostRaceIsAFault :
    let s (st : List HostStmt) : State :=
      { scripted (at_ (ops 0x1000 4 0 0 0x3000) .sealCmd .check) st with turns := [.host] }
    (∀ st, (s st).turns = .host :: [] ∧ (s st).regs.busy = true ∧ (s st).active 0x1003 = true) ∧
      0x1003 ≤ 0x1003 ∧ 0x1003 < 0x1003 + 1 ∧ 0x1003 + 1 ≤ 2 ^ 32 ∧
      (s [.memRead 0x1003 1]).script = .memRead 0x1003 1 :: [] ∧
      (s [.memWrite 0x1003 [5]]).script = .memWrite 0x1003 [5] :: [] :=
  ⟨fun _ => ⟨rfl, rfl, rfl⟩, by decide, by decide, by decide, rfl, rfl⟩

/-- The last two bytes of memory, while a SEAL runs elsewhere, on a platform coherent or not. -/
theorem witness_HostWriteThenRead (c : Bool) :
    let s : State :=
      { scripted (at_ (ops 0x1000 4 0 0 0x3000) .sealCmd .check)
          [.memWrite 0xFFFFFFFE [1, 2], .memRead 0xFFFFFFFE 2] with
        turns := [.host, .host], plat := { Platform.default with coherent := c } }
    s.turns = [.host, .host] ∧ s.plat.coherent = c ∧ 0xFFFFFFFE + [1, 2].length ≤ 2 ^ 32 ∧
      (∀ x, 0xFFFFFFFE ≤ x → x < 0xFFFFFFFE + [1, 2].length →
        s.active x = false ∧ inCsrWindow s.plat x = false) ∧
      s.script = .memWrite 0xFFFFFFFE [1, 2] :: .memRead 0xFFFFFFFE [1, 2].length :: [] := by
  refine ⟨rfl, rfl, by decide, ?_, rfl⟩
  intro x h1 h2
  have h2 : x < 0xFFFFFFFE + 2 := h2
  obtain rfl | rfl : x = 0xFFFFFFFE ∨ x = 0xFFFFFFFF := by omega
  · cases c <;> decide
  · cases c <;> decide

theorem witness_StaleReadsAreTheOnlyOthers :
    let s : State :=
      { State.reset with plat := { Platform.default with coherent := false }, cache := [(0x3000, 5)] }
    inCsrWindow s.plat 0x3000 = false ∧ s.plat.coherent = false ∧ findCell 0x3001 s.cache = none ∧
      findCell 0x3000 s.cache = some 5 ∧ State.reset.plat.coherent = true := by decide

theorem witness_KeyAndNonceScripts :
    let k : Key := Vector.ofFn fun i => BitVec.ofNat 8 i.val
    let n : Nonce := Vector.ofFn fun i => BitVec.ofNat 8 i.val
    let s := scripted State.reset (scriptSetKey k ++ [])
    let u := scripted State.reset (scriptSetNonce n ++ [])
    (s.turns = [] ∧ s.resetIn = false ∧ s.regs.busy = false ∧ s.script = scriptSetKey k ++ []) ∧
      u.turns = [] ∧ u.resetIn = false ∧ u.regs.busy = false ∧ u.script = scriptSetNonce n ++ [] :=
  ⟨⟨rfl, rfl, rfl, rfl⟩, rfl, rfl, rfl, rfl⟩

theorem witness_CommandScripts :
    let s := scripted State.reset (scriptSeal 1 2 3 4 5 ++ [])
    let u := scripted State.reset (scriptOpen 1 2 3 4 5 ++ [])
    (s.turns = [] ∧ s.resetIn = false ∧ s.regs.busy = false ∧ s.regs.fatal = false ∧
      s.hid = Hidden.zero ∧ s.script = scriptSeal 1 2 3 4 5 ++ []) ∧
      u.turns = [] ∧ u.resetIn = false ∧ u.regs.busy = false ∧ u.regs.fatal = false ∧
      u.hid = Hidden.zero ∧ u.script = scriptOpen 1 2 3 4 5 ++ [] := by decide

theorem witness_ResetInOneStep :
    let s (ts : List Turn) (r : Bool) : State := { tinySeal with turns := ts, resetIn := r }
    (s [.assertReset] false).turns = .assertReset :: [] ∧
      (s [.releaseReset] true).turns = .releaseReset :: [] ∧ (s [] true).resetIn = true ∧
      (s [] false).resetIn = false ∧ (0x2 : Word)[1] = true := by decide

theorem witness_IdleEngineWaits :
    let s : State := { State.reset with turns := [.engine] }
    s.turns = .engine :: [] ∧ s.hid = Hidden.zero ∧ State.reset.turns = [] ∧
      State.reset.regs.busy = false ∧ State.reset.script = [] := by decide

theorem witness_MacInputLayout :
    let A : List Byte := [1, 2, 3]
    let C : List Byte := [4]
    (A.length ≤ 15 ∧ 15 < roundUp16 A.length) ∧
      (roundUp16 A.length + C.length ≤ 31 ∧ 31 < roundUp16 A.length + roundUp16 C.length) ∧
      A.length < 2 ^ 64 := by decide

/-! ## Witnesses: whole commands -/

/-- A SEAL of two bytes in place, with one byte of AD, just accepted. -/
def smallSeal : State := (ops 0x1000 2 0x2000 1 0x1000).accept .sealCmd

theorem witness_SealResult :
    smallSeal.Accepted .sealCmd ∧ smallSeal.sealFlaw = none ∧
      ksInitOk smallSeal.plat smallSeal.keyBytes smallSeal.nonceBytes = true ∧ smallSeal.SealReach := by
  decide

/-- The bytes just written read back. -/
theorem readSeq_writeSeq (m : Memory) (a : Nat) (bs : List Byte) :
    (m.writeSeq a bs).readSeq a bs.length = bs := by
  apply List.ext_getElem
  · simp
  · intro i h1 h2
    simp [read_writeSeq, h2]

/-- An OPEN just accepted whose input is the 16 bytes of a tag. -/
def tagOpen (tag : List Byte) : State :=
  { (ops 0x1000 16 0 0 0x3000).accept .openCmd with mem := State.reset.mem.writeSeq 0x1000 tag }

/-- The tag of the empty message under the reset key and nonce. -/
def emptyTag : Tag := macTag Platform.default (tagOpen []).otkOf (macInput [] [])

theorem openTag_tagOpen (tag : List Byte) : (tagOpen tag).openTag = emptyTag := by
  have hp : (tagOpen tag).plat = Platform.default := rfl
  have hk : (tagOpen tag).keyBytes = (tagOpen []).keyBytes := rfl
  have hn : (tagOpen tag).nonceBytes = (tagOpen []).nonceBytes := rfl
  have ha : (tagOpen tag).adl = 0 := rfl
  have hl : (tagOpen tag).clen = 0 := rfl
  unfold State.openTag State.otkOf emptyTag State.otkOf
  rw [hp, hk, hn, ha, hl]
  rfl

theorem claimedTag_tagOpen (tag : Tag) : (tagOpen tag.toList).claimedTag = tag.toList := by
  have h := readSeq_writeSeq State.reset.mem 0x1000 tag.toList
  rw [Vector.length_toList] at h
  exact h

theorem witness_OpenValidResult :
    let s := tagOpen emptyTag.toList
    s.Accepted .openCmd ∧ s.openFlaw = none ∧ ksInitOk s.plat s.keyBytes s.nonceBytes = true ∧
      s.OpenReach ∧ s.claimedTag = s.openTag.toList := by
  refine ⟨⟨rfl, rfl, rfl, rfl⟩, by decide, by decide, by decide, ?_⟩
  rw [claimedTag_tagOpen, openTag_tagOpen]

/-- The tag with a bit of its last byte flipped (95_test_vectors.md §2.4.1, row 8). -/
def wrongTag : Tag := emptyTag.set 15 (emptyTag[15] ^^^ 1)

theorem witness_OpenInvalidResult :
    let s := tagOpen wrongTag.toList
    s.Accepted .openCmd ∧ s.openFlaw = none ∧ ksInitOk s.plat s.keyBytes s.nonceBytes = true ∧
      s.OpenReach ∧ s.claimedTag ≠ s.openTag.toList := by
  refine ⟨⟨rfl, rfl, rfl, rfl⟩, by decide, by decide, by decide, ?_⟩
  rw [claimedTag_tagOpen, openTag_tagOpen]
  intro e
  have hv : wrongTag = emptyTag := Vector.toList_inj.mp e
  have h15 := congrArg (fun v : Tag => v[15]) hv
  simp [wrongTag] at h15

/-- `smallSeal` with a host that polls, reads and writes CTRL between the engine's steps. -/
def busyHost : State :=
  { smallSeal with
    turns := [.host, .engine, .host, .releaseReset, .host]
    script := [rd32 .status, .wr 0x08 .b32 0x1, .memRead 0x5000 2] }

theorem witness_EveryCommandEnds :
    busyHost.regs.busy = true ∧ busyHost.hid = Hidden.fresh (some .sealCmd) .check ∧
      .assertReset ∉ busyHost.turns ∧ ∀ st ∈ busyHost.script, st.softResets = false := by decide

/-- A CTRL write with bit 1 set, and no other, is the soft reset (R24, R241). -/
theorem test_softResets :
    (HostStmt.wr 0x08 .b32 0x2).softResets = true ∧ (HostStmt.wr 0x0C .b32 0x2).softResets = false ∧
      (HostStmt.wr 0x08 .b16 0x2).softResets = false := by decide

/-- The OPEN of what `smallSeal` writes, in place. -/
def smallOpen : State :=
  { (ops 0x1000 18 0x2000 1 0x1000).accept .openCmd with mem := smallSeal.sealMem }

theorem witness_OpenUndoesSeal :
    (∀ x, smallSeal.ada ≤ x → x < smallSeal.ada + smallSeal.adl →
      ¬(smallSeal.outa ≤ x ∧ x < smallSeal.outa + smallSeal.plen)) ∧
    smallOpen.Accepted .openCmd ∧ smallOpen.openFlaw = none ∧ smallOpen.OpenReach ∧
    smallOpen.plat = smallSeal.plat ∧ smallOpen.regs.key = smallSeal.regs.key ∧
    smallOpen.regs.nonce = smallSeal.regs.nonce ∧ smallOpen.ina = smallSeal.outa ∧
    smallOpen.inl = smallSeal.plen + 16 ∧ smallOpen.adl = smallSeal.adl ∧
    (∀ j < smallSeal.plen + 16,
      smallOpen.mem.read (smallOpen.ina + j) = smallSeal.sealMem.read (smallSeal.outa + j)) ∧
    ∀ j < smallSeal.adl,
      smallOpen.mem.read (smallOpen.ada + j) = smallSeal.mem.read (smallSeal.ada + j) := by
  refine ⟨?_, ⟨rfl, rfl, rfl, rfl⟩, by decide, by decide, rfl, rfl, rfl, rfl, rfl, rfl, fun _ _ => rfl, ?_⟩
  · intro x h1 _ h2
    have h1 : 0x2000 ≤ x := h1
    have h2 : x < 0x1000 + 2 := h2.2
    omega
  · intro j hj
    have hj : j < 1 := hj
    show ((smallSeal.mem.writeSeq 0x1000 smallSeal.sealCipher).writeSeq (0x1000 + 2)
      smallSeal.sealTag.toList).read (0x2000 + j) = smallSeal.mem.read (0x2000 + j)
    have hc : smallSeal.sealCipher.length = 2 := by
      simp [State.sealCipher, xorBytes, State.payKeystream, show smallSeal.plen = 2 from rfl]
    rw [read_writeSeq, read_writeSeq, dif_neg (by rw [Vector.length_toList]; omega),
      dif_neg (by rw [hc]; omega)]

/-- `smallSeal` with a window of its own. -/
def apartSeal : State := (ops 0x1000 2 0x2000 1 0x3000).accept .sealCmd

theorem witness_SealOutputDependsOnlyOnItsInputs :
    smallSeal.Accepted .sealCmd ∧ apartSeal.Accepted .sealCmd ∧
    smallSeal.sealFlaw = none ∧ apartSeal.sealFlaw = none ∧ smallSeal.SealReach ∧ apartSeal.SealReach ∧
    ksInitOk smallSeal.plat smallSeal.keyBytes smallSeal.nonceBytes = true ∧
    apartSeal.plat = smallSeal.plat ∧ apartSeal.regs.key = smallSeal.regs.key ∧
    apartSeal.regs.nonce = smallSeal.regs.nonce ∧ apartSeal.plen = smallSeal.plen ∧
    apartSeal.adl = smallSeal.adl ∧
    (∀ j < smallSeal.plen,
      apartSeal.mem.read (apartSeal.ina + j) = smallSeal.mem.read (smallSeal.ina + j)) ∧
    (∀ j < smallSeal.adl,
      apartSeal.mem.read (apartSeal.ada + j) = smallSeal.mem.read (smallSeal.ada + j)) ∧
    ∀ x, apartSeal.ada ≤ x → x < apartSeal.ada + apartSeal.adl →
      ¬(apartSeal.outa ≤ x ∧ x < apartSeal.outa + apartSeal.plen) := by
  refine ⟨by decide, by decide, by decide, by decide, by decide, by decide, by decide, rfl, rfl, rfl, rfl,
    rfl, by decide, by decide, ?_⟩
  intro x _ h1 h2
  have h1 : x < 0x2000 + 1 := h1
  have h2 : 0x3000 ≤ x := h2.1
  omega

end Sys2Proof.Tests
end

namespace Sys2Proof.Machine

/-! ## Where a step of a command goes -/

/-- `q` is a position of the rule of command `i`, and in no earlier phase of it than `p` (R40). -/
def Pos.Advances (i : Instr) (p q : Pos) : Prop :=
  q.fits i = true ∧ phaseRank i p.phase ≤ phaseRank i q.phase

/-- A step of a command from `s` does not stop in a fault, and completes the command or leaves a state with `P`. -/
def State.Proceeds (s : State) (P : State → Prop) : Out → Prop
  | .next t => (∃ r n, t = s.complete r n) ∨ P t
  | .fault _ => False
  | .refused _ => True

theorem busRead_proceeds {s : State} {P : State → Prop} (x : Nat) {k : Byte → State} (hk : ∀ b, P (k b)) :
    s.Proceeds P (s.busRead x k) := by
  unfold State.busRead
  split
  · exact .inl ⟨_, _, rfl⟩
  · split
    · trivial
    · exact .inr (hk _)

theorem busWrite_proceeds {s : State} {P : State → Prop} (x : Nat) (v : Byte) {k : State → State}
    (hk : ∀ u, P (k u)) : s.Proceeds P (s.busWrite x v k) := by
  unfold State.busWrite
  split
  · exact .inl ⟨_, _, rfl⟩
  · split
    · trivial
    · exact .inr (hk _)

theorem checkStage_proceeds {s : State} {P : State → Prop} (flaw : Option Result)
    (h : P (s.goto .keySched)) : s.Proceeds P (.next (s.checkStage flaw)) := by
  rcases checkStage_cases s flaw with ⟨r, _, e⟩ | ⟨_, e⟩
  · exact .inl ⟨r, 0, e⟩
  · exact .inr (e ▸ h)

theorem keySched_proceeds {s : State} {P : State → Prop} (q : Pos) (h : ∀ u : State, u.hid.pos = q → P u) :
    s.Proceeds P (.next (s.keySched q)) := by
  rcases keySched_cases s q with ⟨_, e⟩ | ⟨_, e⟩
  · exact .inl ⟨_, _, e⟩
  · exact .inr (h _ (by rw [e]))

theorem proceeds_ite {s : State} {P : State → Prop} {c : Prop} [Decidable c] {a b : Out}
    (ha : s.Proceeds P a) (hb : s.Proceeds P b) : s.Proceeds P (if c then a else b) := by
  split
  · exact ha
  · exact hb

/-- From a position of its rule SEAL goes on to one of its rule (R162). -/
theorem execSealCmd_proceeds {s : State} (hf : s.hid.pos.fits .sealCmd = true) :
    s.Proceeds (fun t => s.hid.pos.Advances .sealCmd t.hid.pos) (execSealCmd s) := by
  unfold execSealCmd
  cases hp : s.hid.pos with
  | check => exact checkStage_proceeds _ ⟨rfl, Nat.le_of_ble_eq_true rfl⟩
  | keySched => exact keySched_proceeds _ fun _ h => h ▸ ⟨rfl, Nat.le_of_ble_eq_true rfl⟩
  | xformRead j =>
    exact proceeds_ite (busRead_proceeds _ fun _ => ⟨rfl, Nat.le_refl _⟩)
      (.inr ⟨rfl, Nat.le_of_ble_eq_true rfl⟩)
  | xformWrite j y => exact busWrite_proceeds _ _ fun _ => ⟨rfl, Nat.le_refl _⟩
  | macAd j =>
    exact proceeds_ite (busRead_proceeds _ fun _ => ⟨rfl, Nat.le_refl _⟩)
      (.inr ⟨rfl, Nat.le_of_ble_eq_true rfl⟩)
  | tagCompute => exact .inr ⟨rfl, Nat.le_refl _⟩
  | tagWrite j =>
    dsimp only
    split
    · exact busWrite_proceeds _ _ fun _ => ⟨rfl, Nat.le_refl _⟩
    · exact .inl ⟨_, _, rfl⟩
  | idle | macCt _ | tagRead _ | tagCompare | tagVerdict | zeroFill _ =>
    rw [hp] at hf
    cases hf

/-- From a position of its rule OPEN goes on to one of its rule (R163). -/
theorem execOpenCmd_proceeds {s : State} (hf : s.hid.pos.fits .openCmd = true) :
    s.Proceeds (fun t => s.hid.pos.Advances .openCmd t.hid.pos) (execOpenCmd s) := by
  unfold execOpenCmd
  cases hp : s.hid.pos with
  | check => exact checkStage_proceeds _ ⟨rfl, Nat.le_of_ble_eq_true rfl⟩
  | keySched => exact keySched_proceeds _ fun _ h => h ▸ ⟨rfl, Nat.le_of_ble_eq_true rfl⟩
  | macAd j =>
    exact proceeds_ite (busRead_proceeds _ fun _ => ⟨rfl, Nat.le_refl _⟩) (.inr ⟨rfl, Nat.le_refl _⟩)
  | macCt j =>
    exact proceeds_ite (busRead_proceeds _ fun _ => ⟨rfl, Nat.le_refl _⟩)
      (.inr ⟨rfl, Nat.le_of_ble_eq_true rfl⟩)
  | tagCompute | tagCompare => exact .inr ⟨rfl, Nat.le_refl _⟩
  | tagRead j =>
    dsimp only
    split
    · exact busRead_proceeds _ fun _ => ⟨rfl, Nat.le_refl _⟩
    · exact .inr ⟨rfl, Nat.le_refl _⟩
  | tagVerdict =>
    rcases tagVerdict_cases s with ⟨_, e⟩ | ⟨_, e⟩ <;>
      exact .inr (e ▸ ⟨rfl, Nat.le_of_ble_eq_true rfl⟩)
  | xformRead j =>
    exact proceeds_ite (busRead_proceeds _ fun _ => ⟨rfl, Nat.le_refl _⟩) (.inl ⟨_, _, rfl⟩)
  | xformWrite j y => exact busWrite_proceeds _ _ fun _ => ⟨rfl, Nat.le_refl _⟩
  | zeroFill j =>
    exact proceeds_ite (busWrite_proceeds _ _ fun _ => ⟨rfl, Nat.le_refl _⟩) (.inl ⟨_, _, rfl⟩)
  | idle | tagWrite _ =>
    rw [hp] at hf
    cases hf

/-- From CHECK, the one position of its rule, a reserved command completes (R164). -/
theorem execBadCmd_proceeds {s : State} {w : Word} (hf : s.hid.pos.fits (.badCmd w) = true) :
    s.Proceeds (fun t => s.hid.pos.Advances (.badCmd w) t.hid.pos) (execBadCmd w s) := by
  unfold execBadCmd
  cases hp : s.hid.pos with
  | check => exact .inl ⟨_, _, rfl⟩
  | idle | keySched | xformRead _ | xformWrite _ _ | macAd _ | macCt _ | tagCompute | tagWrite _ | tagRead _
  | tagCompare | tagVerdict | zeroFill _ =>
    rw [hp] at hf
    cases hf

/-- From a position of its rule a command raises no fault, and completes or goes on to a position of its rule in no
earlier phase. -/
theorem exec_proceeds {s : State} {i : Instr} (hf : s.hid.pos.fits i = true) :
    s.Proceeds (fun t => s.hid.pos.Advances i t.hid.pos) (exec i s) := by
  cases i with
  | sealCmd => exact execSealCmd_proceeds hf
  | openCmd => exact execOpenCmd_proceeds hf
  | badCmd w => exact execBadCmd_proceeds hf

theorem exec_completes_or_advances {s t : State} {i : Instr} (hf : s.hid.pos.fits i = true)
    (h : exec i s = .next t) :
    (∃ r n, t = s.complete r n) ∨ s.hid.pos.Advances i t.hid.pos := by
  have hp := exec_proceeds hf
  rwa [h] at hp

theorem exec_ne_fault {s : State} {i : Instr} (hf : s.hid.pos.fits i = true) (r : Fault) :
    exec i s ≠ .fault r := by
  intro h
  have hp := exec_proceeds hf
  rwa [h] at hp

theorem fits_idle (i : Instr) : Pos.fits i .idle = false := by cases i <;> rfl

theorem fits_check (i : Instr) : Pos.fits i .check = true := by cases i <;> rfl

/-- IDLE, where every command ends, comes last in every rule (R40). -/
theorem phaseRank_le_idle (i : Instr) (p : Phase) : phaseRank i p ≤ phaseRank i .idle := by
  cases i <;> cases p <;> exact Nat.le_of_ble_eq_true rfl

end Sys2Proof.Machine

namespace Sys2Proof.Machine

/-! ## What every step keeps -/

/-- Everything a step of a command can do: issue it while the engine is idle, complete it, or change memory and hidden
state only, OP excepted. -/
theorem exec_outcomes {s t : State} {i : Instr} (h : exec i s = .next t) :
    (s.hid.pos = .idle ∧ t = s.issue i) ∨ (∃ r n, t = s.complete r n) ∨
      ∃ m d, t = { s with mem := m, hid := d } ∧ d.op = s.hid.op := by
  rcases exec_next_cases h with e | ⟨_, e | ⟨d, e, ho⟩ | ⟨_, _, _, v, d, e, ho⟩⟩
  · exact .inl e
  · exact .inr (.inl e)
  · exact .inr (.inr ⟨_, d, e, ho⟩)
  · exact .inr (.inr ⟨_, d, e, ho⟩)

/-- A command at a position of its rule completes, or changes memory and hidden state only and goes on to a position
of its rule in no earlier phase. -/
theorem exec_fits_outcomes {s t : State} {i : Instr} (hf : s.hid.pos.fits i = true) (h : exec i s = .next t) :
    (∃ r n, t = s.complete r n) ∨
      ∃ m d, t = { s with mem := m, hid := d } ∧ d.op = s.hid.op ∧ s.hid.pos.Advances i d.pos := by
  rcases exec_completes_or_advances hf h with e | ha
  · exact .inl e
  · rcases exec_outcomes h with ⟨hp, _⟩ | e | ⟨m, d, rfl, ho⟩
    · simp [hp, fits_idle] at hf
    · exact .inl e
    · exact .inr ⟨m, d, rfl, ho, ha⟩

/-- A predicate of the registers, the hidden state and the reset input that commands, register writes and the moves of
the reset input keep is kept by every step of the machine. -/
theorem step_keeps {P : State → Prop}
    (congr : ∀ {s u : State}, u.regs = s.regs → u.hid = s.hid → u.resetIn = s.resetIn → P s → P u)
    (exec_keeps : ∀ {s t : State} {i : Instr}, P s → s.hid.op = some i → exec i s = .next t → P t)
    (regWrite_keeps : ∀ (s : State) (r : RegName) (v : Word), P s → P (s.regWrite r v))
    (assert_keeps : ∀ s : State, P s → P { s.resetEngine with resetIn := true })
    (release_keeps : ∀ s : State, P s → P { s with resetIn := false })
    {s t : State} (hs : P s) (h : step s = .next t) : P t := by
  obtain ⟨u, hu, hstep⟩ := step_next_cases h
  have hid_eq : u.hid = s.hid := by
    rcases hu with rfl | ⟨_, _, _, rfl⟩ <;> rfl
  have hPu : P u := by
    rcases hu with rfl | ⟨_, _, _, rfl⟩
    · exact hs
    · exact congr (s := s) rfl rfl rfl hs
  rcases hstep with ⟨i, ho, he⟩ | ⟨hengine, _, _, hreset, _⟩ | rfl | rfl
  · exact exec_keeps hPu (hid_eq ▸ ho) he
  · rcases hengine with ⟨hr, hh⟩ | ⟨_, r, v, hr, hh⟩
    · exact congr hr hh hreset hPu
    · exact congr hr hh (hreset.trans (regWrite_frame u r v).2.2.1.symm) (regWrite_keeps u r v hPu)
  · exact assert_keeps u hPu
  · exact release_keeps u hPu

/-! ## R46: an idle engine holds nothing -/

theorem quiet_of_busy {s : State} (h : s.regs.busy = true) : s.Quiet := by
  intro hb
  simp [h] at hb

theorem quiet_of_hid_zero {s : State} (h : s.hid = Hidden.zero) : s.Quiet := fun _ => h

theorem quiet_congr {s u : State} (hr : u.regs = s.regs) (hh : u.hid = s.hid) (h : s.Quiet) : u.Quiet := by
  unfold State.Quiet
  rw [hr, hh]
  exact h

/-- Under R46 an engine that has a command is busy. -/
theorem busy_of_op {s : State} {i : Instr} (hq : s.Quiet) (ho : s.hid.op = some i) : s.regs.busy = true := by
  by_contra hb
  rw [hq (by simpa using hb)] at ho
  cases ho

theorem exec_keeps_quiet {s t : State} {i : Instr} (hq : s.Quiet) (ho : s.hid.op = some i)
    (h : exec i s = .next t) : t.Quiet := by
  have hb := busy_of_op hq ho
  rcases exec_outcomes h with ⟨_, rfl⟩ | ⟨r, n, rfl⟩ | ⟨m, d, rfl, _⟩
  · rcases issue_cases s i with ⟨_, e⟩ | ⟨_, e⟩ <;> rw [e]
    · exact quiet_of_busy hb
    · exact quiet_of_busy rfl
  · exact quiet_of_hid_zero rfl
  · exact quiet_of_busy hb

theorem regWrite_keeps_quiet (s : State) (r : RegName) (v : Word) (hq : s.Quiet) : (s.regWrite r v).Quiet := by
  rcases regWrite_cases s r v with e | e | e | ⟨_, _, _, e⟩ | e | e | ⟨_, _, _, _, _, _, _, _, _, e⟩ <;> rw [e]
  case inr.inr.inl => exact quiet_of_hid_zero rfl
  case inr.inr.inr.inl => exact quiet_of_busy rfl
  all_goals exact hq

theorem step_keeps_quiet {s t : State} (hq : s.Quiet) (h : step s = .next t) : t.Quiet :=
  step_keeps (fun hr hh _ => quiet_congr hr hh) exec_keeps_quiet regWrite_keeps_quiet
    (fun _ _ => quiet_of_hid_zero rfl) (fun _ hq => hq) hq h

/-- Settles O39: every step keeps R46, and at R46's zero value every hidden item reads as the rule lists it. -/
theorem idleEngineHoldsNoSecret : Obligations.IdleEngineHoldsNoSecret := by
  refine ⟨fun s t => step_keeps_quiet, fun s hq hb => ?_⟩
  simp only [State.opClass, State.phase, hq hb]
  exact ⟨rfl, rfl, rfl, rfl, rfl, rfl, rfl, rfl⟩

/-! ## The control invariant -/

theorem badCmd_wf {w : Word} (h1 : w ≠ 1) (h2 : w ≠ 2) : (Instr.badCmd w).wf = true := by
  simpa [Instr.wf] using And.intro h1 h2

/-- Every word decodes to a well-formed command (R94). -/
theorem decode_wf (w : Word) : (decode w).wf = true := by
  unfold decode
  split_ifs with hrsvd hseal hopen
  · exact badCmd_wf (by rintro rfl; exact hrsvd rfl) (by rintro rfl; exact hrsvd rfl)
  · rfl
  · rfl
  · exact badCmd_wf (by rintro rfl; exact hseal rfl) (by rintro rfl; exact hopen rfl)

theorem running_iff {d : Hidden} {i : Instr} (ho : d.op = some i) :
    d.running = true ↔ i.wf = true ∧ d.pos.fits i = true := by
  simp [Hidden.running, ho]

theorem inv_congr {s u : State} (hr : u.regs = s.regs) (hh : u.hid = s.hid) (hi : u.resetIn = s.resetIn)
    (h : s.Inv) : u.Inv := by
  unfold State.Inv State.Quiet State.BusyForm State.FatalForm State.LenForm State.HeldForm
  rw [hr, hh, hi]
  exact h

theorem inv_of_reset {s : State} (hr : s.regs = Regs.reset) (hh : s.hid = Hidden.zero) : s.Inv := by
  unfold State.Inv State.Quiet State.BusyForm State.FatalForm State.LenForm State.HeldForm
  rw [hr, hh]
  exact ⟨fun _ => rfl, nofun, rfl, fun _ => rfl, fun _ => ⟨rfl, rfl⟩⟩

/-- What the control invariant says of an engine that has a command. -/
theorem inv_running {s : State} {i : Instr} (hs : s.Inv) (ho : s.hid.op = some i) :
    s.regs.busy = true ∧ s.regs.fatal = false ∧ s.resetIn = false ∧ i.wf = true ∧ s.hid.pos.fits i = true := by
  obtain ⟨hq, hbusy, _, _, hheld⟩ := hs
  have hb := busy_of_op hq ho
  obtain ⟨_, hfatal, _, _, hrun⟩ := hbusy hb
  have hreset : s.resetIn = false := by
    by_contra hr
    rw [(hheld (by simpa using hr)).2] at ho
    cases ho
  exact ⟨hb, hfatal, hreset, (running_iff ho).mp hrun⟩

theorem complete_inv {s : State} (r : Result) (n : Nat) (hfatal : s.regs.fatal = false)
    (hreset : s.resetIn = false) : (s.complete r n).Inv := by
  refine ⟨fun _ => rfl, nofun, ?_, fun hr => ?_, fun hh => ?_⟩
  · simp [State.FatalForm, hfatal]
  · exact if_neg hr
  · simp [hreset] at hh

theorem exec_keeps_inv {s t : State} {i : Instr} (hs : s.Inv) (ho : s.hid.op = some i)
    (h : exec i s = .next t) : t.Inv := by
  obtain ⟨hb, hfatal, hreset, hwf, hfits⟩ := inv_running hs ho
  rcases exec_fits_outcomes hfits h with ⟨r, n, rfl⟩ | ⟨m, d, rfl, hop, hpos, _⟩
  · exact complete_inv r n hfatal hreset
  · obtain ⟨_, hbusy, hfat, hlen, _⟩ := hs
    obtain ⟨hdone, _, hres, hout, _⟩ := hbusy hb
    refine ⟨quiet_of_busy hb, fun _ => ⟨hdone, hfatal, hres, hout, ?_⟩, hfat, hlen, fun hh => ?_⟩
    · exact (running_iff (hop.trans ho)).mpr ⟨hwf, hpos⟩
    · simp [hreset] at hh

theorem accept_inv {s : State} {i : Instr} (hwf : i.wf = true) (hfatal : s.regs.fatal = false)
    (hreset : s.resetIn = false) : (s.accept i).Inv := by
  refine ⟨quiet_of_busy rfl, fun _ => ⟨rfl, hfatal, rfl, rfl, ?_⟩, ?_, fun _ => rfl, fun hh => ?_⟩
  · exact (running_iff rfl).mpr ⟨hwf, fits_check i⟩
  · exact hfatal.trans isFatal_ok.symm
  · simp [hreset] at hh

/-- While reset is held a register write changes nothing (R240, log 7). -/
theorem regWrite_held {s : State} (h : s.resetIn = true) (r : RegName) (v : Word) : s.regWrite r v = s := by
  simp [State.regWrite, h]

theorem regWrite_keeps_inv (s : State) (r : RegName) (v : Word) (hs : s.Inv) : (s.regWrite r v).Inv := by
  cases hreset : s.resetIn with
  | true => rwa [regWrite_held hreset]
  | false =>
    obtain ⟨hq, hbusy, hfatal, hlen, -⟩ := hs
    have held (t : State) (h : t.resetIn = s.resetIn) : t.HeldForm := fun hh => by simp [h, hreset] at hh
    rcases regWrite_cases s r v with e | e | e | ⟨_, hb, hf, e⟩ | e | e | ⟨_, hb, _, _, _, _, _, _, _, e⟩ <;>
      rw [e]
    · exact ⟨hq, hbusy, hfatal, hlen, held _ rfl⟩
    · exact ⟨hq, hbusy, hfatal, hlen, held _ rfl⟩
    · exact inv_of_reset rfl rfl
    · exact accept_inv (decode_wf v) hf hreset
    · exact ⟨hq, hbusy, hfatal, hlen, held _ rfl⟩
    · refine ⟨hq, fun hb => ?_, hfatal, hlen, held _ rfl⟩
      obtain ⟨hdone, hrest⟩ := hbusy hb
      exact ⟨by simp [Regs.statusWrite, hdone], hrest⟩
    · exact ⟨hq, hbusy, hfatal, hlen, held _ rfl⟩

theorem release_keeps_inv (s : State) (hs : s.Inv) : State.Inv { s with resetIn := false } := by
  obtain ⟨hq, hbusy, hfatal, hlen, _⟩ := hs
  exact ⟨hq, hbusy, hfatal, hlen, nofun⟩

/-- Settles O40: commands, register writes and the reset input each keep the control invariant. -/
theorem stepKeepsTheControlInvariant : Obligations.StepKeepsTheControlInvariant :=
  fun _ _ => step_keeps inv_congr exec_keeps_inv regWrite_keeps_inv (fun _ _ => inv_of_reset rfl rfl)
    release_keeps_inv

end Sys2Proof.Machine

namespace Sys2Proof.Machine

/-! ## Frames: what commands and steps leave alone -/

/-- Settles O33: each outcome of a step of a command changes none of the listed fields, except IGN where the fatal lock
refuses the command. -/
theorem commandFrame : Obligations.CommandFrame := by
  intro s t i h
  rcases exec_outcomes h with ⟨hp, rfl⟩ | ⟨r, n, rfl⟩ | ⟨m, d, rfl, _⟩
  · rcases issue_cases s i with ⟨hf, e⟩ | ⟨_, e⟩ <;> rw [e]
    · simp [hp, hf]
    · simp
  · simp
  · simp

theorem exec_plat {s t : State} {i : Instr} (h : exec i s = .next t) : t.plat = s.plat := by
  obtain ⟨_, _, _, _, _, _, _, _, _, hplat, _⟩ := commandFrame s t i h
  exact hplat

/-- Settles O43: no agent's step touches the parameters. -/
theorem parametersNeverChange : Obligations.ParametersNeverChange := by
  intro s t h
  obtain ⟨u, hu, hstep⟩ := step_next_cases h
  have hus : u.plat = s.plat := by
    rcases hu with rfl | ⟨_, _, _, rfl⟩ <;> rfl
  rcases hstep with ⟨i, _, he⟩ | ⟨_, _, hplat, _⟩ | rfl | rfl
  · exact (exec_plat he).trans hus
  · exact hplat.trans hus
  · exact hus
  · exact hus

/-! ## The sequence of a command -/

/-- A host memory statement stops only for the host's own reasons. -/
theorem hostFault_ne_offSequence (s : State) (a n : Nat) : s.hostFault a n ≠ some .offSequence := by
  unfold State.hostFault
  split_ifs <;> simp

theorem hostMemWrite_ne_offSequence (s : State) (a : Nat) (bs : List Byte) :
    s.hostMemWrite a bs ≠ .fault .offSequence := by
  unfold State.hostMemWrite
  split
  · rename_i f hf
    rintro ⟨⟩
    exact hostFault_ne_offSequence _ _ _ hf
  · nofun

theorem hostMemRead_ne_offSequence (s : State) (a n : Nat) : s.hostMemRead a n ≠ .fault .offSequence := by
  unfold State.hostMemRead
  split
  · rename_i f hf
    rintro ⟨⟩
    exact hostFault_ne_offSequence _ _ _ hf
  · nofun

theorem hostStmt_ne_offSequence (s stay : State) (st : HostStmt) :
    s.hostStmt stay st ≠ .fault .offSequence := by
  cases st with
  | memWrite a bs => exact hostMemWrite_ne_offSequence s a bs
  | memRead a n => exact hostMemRead_ne_offSequence s a n
  | poll off mask v =>
    dsimp only [State.hostStmt]
    split_ifs <;> nofun
  | wr _ _ _ | rd _ _ | invalidate _ _ => nofun

theorem hostStep_ne_offSequence (s : State) : s.hostStep ≠ .fault .offSequence := by
  unfold State.hostStep
  split
  · nofun
  · exact hostStmt_ne_offSequence _ _ _

/-- Under the control invariant the engine's command stands at a position of its rule, where no step faults. -/
theorem engineStep_ne_offSequence {s : State} (hs : s.Inv) : s.engineStep ≠ .fault .offSequence := by
  unfold State.engineStep
  split
  · rename_i i ho
    obtain ⟨_, _, _, _, hfits⟩ := inv_running hs ho
    exact exec_ne_fault hfits _
  · nofun

theorem move_ne_offSequence {s : State} (hs : s.Inv) (c : Turn) : s.move c ≠ .fault .offSequence := by
  cases c with
  | engine => exact engineStep_ne_offSequence hs
  | host => exact hostStep_ne_offSequence s
  | assertReset | releaseReset => nofun

theorem step_ne_offSequence {s : State} (hs : s.Inv) : step s ≠ .fault .offSequence := by
  unfold step State.advance
  split
  · exact move_ne_offSequence hs _
  · rename_i c ts _
    exact move_ne_offSequence (s := { s with turns := ts }) (inv_congr (s := s) rfl rfl rfl hs) c

/-- Settles O44: a command completes, in IDLE, which ranks last, or advances in its rule; and no step leaves
the rule. -/
theorem phaseOnlyAdvances : Obligations.PhaseOnlyAdvances := by
  refine ⟨fun s t i hf h => ?_, fun s hs => step_ne_offSequence hs⟩
  rcases exec_completes_or_advances hf h with ⟨r, n, rfl⟩ | ⟨_, hrank⟩
  · exact phaseRank_le_idle i _
  · exact hrank

end Sys2Proof.Machine

namespace Sys2Proof.Machine

/-! ## Host scripts of guarded register writes -/

theorem portReg_offset (r : RegName) : portReg r.offset .b32 = some r := by
  cases r with
  | key j => exact portReg_key j
  | nonce j => exact portReg_nonce j
  | _ => decide

theorem regWrite_live {s : State} (h : s.resetIn = false) (r : RegName) (v : Word) :
    s.regWrite r v = s.regWriteLive r v := by
  simp [State.regWrite, h]

theorem guarded_idle {s : State} (h : s.regs.busy = false) (f : Regs → Regs) :
    s.guarded f = { s with regs := f s.regs } := by
  simp [State.guarded, h]

theorem guarded_busy {s : State} (h : s.regs.busy = true) (f : Regs → Regs) : s.guarded f = s.ignore := by
  simp [State.guarded, h]

/-- With an empty schedule and no command running, the next step is the host's write. -/
theorem step_wr32 {s : State} {r : RegName} {v : Word} {rest : List HostStmt} (ht : s.turns = [])
    (hb : s.regs.busy = false) (hs : s.script = wr32 r v :: rest) :
    step s = .next (State.regWrite { s with script := rest } r v) := by
  simp only [step, State.advance, ht, State.defaultTurn, hb, Bool.false_eq_true, if_false, State.move,
    State.hostStep, hs, wr32, State.hostStmt, portWrite_reg (portReg_offset r)]

theorem run_succ {M : Host.Core} {s t : M.State} (h : M.step s = .next t) (k : Nat) :
    M.run (k + 1) s = M.run k t := by
  simp only [Host.Core.run, h]

/-- A script that writes `val a` to the guarded register `name a` for each `a` of a list leaves the registers as the
writes in turn leave them, one step per write. -/
theorem run_guardedWrites {α : Type} (name : α → RegName) (val : α → Word) (upd : α → Regs → Regs)
    (hlive : ∀ (s : State) a, s.regWriteLive (name a) (val a) = s.guarded (upd a))
    (hbusy : ∀ a g, (upd a g).busy = g.busy) {rest : List HostStmt} (l : List α) :
    ∀ s : State, s.turns = [] → s.resetIn = false → s.regs.busy = false →
      s.script = l.map (fun a => wr32 (name a) (val a)) ++ rest →
      Host.Core.run core l.length s =
        .next { s with script := rest, regs := l.foldl (fun g a => upd a g) s.regs } := by
  induction l with
  | nil =>
    intro s _ _ _ hs
    simp [Host.Core.run, ← show s.script = rest from hs]
  | cons a l ih =>
    intro s ht hr hb hs
    have hwrite (u : State) (hur : u.resetIn = false) (hub : u.regs.busy = false) :
        u.regWrite (name a) (val a) = { u with regs := upd a u.regs } := by
      rw [regWrite_live hur, hlive, guarded_idle hub]
    have hstep := (step_wr32 ht hb hs).trans (congrArg _ (hwrite _ hr hb))
    exact (run_succ (M := core) hstep _).trans (ih _ ht hr ((hbusy a _).trans hb) rfl)

/-- Elements set one after the other, each to a value of its own: an element reads as its value if it is in the list
of those set, else as before. -/
theorem foldl_set_get {n : Nat} (f : Fin n → Word) (l : List (Fin n)) (v : Vector Word n) (i : Fin n) :
    (l.foldl (fun v j => v.set j (f j)) v)[i] = if i ∈ l then f i else v[i] := by
  induction l generalizing v with
  | nil => simp
  | cons j l ih =>
    rw [List.foldl_cons, ih]
    by_cases hij : i = j
    · subst hij
      simp
    · have hne : j.val ≠ i.val := fun h => hij (Fin.ext h.symm)
      simp [hij, Vector.getElem_set_ne _ _ hne]

theorem foldl_set_finRange {n : Nat} (f : Fin n → Word) (v : Vector Word n) :
    (List.finRange n).foldl (fun v j => v.set j (f j)) v = Vector.ofFn f := by
  ext i hi : 1
  simpa using foldl_set_get f (List.finRange n) v ⟨i, hi⟩

theorem foldl_setKey (f : Fin 8 → Word) (g : Regs) :
    (List.finRange 8).foldl (fun g j => { g with key := g.key.set j.val (f j) }) g =
      { g with key := Vector.ofFn f } :=
  (List.foldl_hom (fun v => { g with key := v }) fun _ _ => rfl).trans (by rw [foldl_set_finRange])

theorem foldl_setNonce (f : Fin 3 → Word) (g : Regs) :
    (List.finRange 3).foldl (fun g j => { g with nonce := g.nonce.set j.val (f j) }) g =
      { g with nonce := Vector.ofFn f } :=
  (List.foldl_hom (fun v => { g with nonce := v }) fun _ _ => rfl).trans (by rw [foldl_set_finRange])

/-- Byte `b` of a packed word is the `b`-th of the bytes packed (R33, R97). -/
theorem wordByte_packWord (b0 b1 b2 b3 : Byte) {b : Nat} (hb : b < 4) :
    wordByte (packWord b0 b1 b2 b3) b = #v[b0, b1, b2, b3][b] := by
  ext i hi
  rw [wordByte, BitVec.getElem_extractLsb']
  show (b3 ++ b2 ++ b1 ++ b0 : BitVec (8 + 8 + 8 + 8)).getLsbD (8 * b + i) = _
  rw [BitVec.getLsbD_append, BitVec.getLsbD_append, BitVec.getLsbD_append]
  match b, hb with
  | 0, _ | 1, _ | 2, _ | 3, _ => simp (disch := omega) [if_neg, hi, Nat.sub_sub]

theorem vector_getElem_group {n : Nat} (bs : Vector Byte n) (i : Nat) (h : 4 * (i / 4) + 3 < n) :
    #v[bs[4 * (i / 4)], bs[4 * (i / 4) + 1], bs[4 * (i / 4) + 2], bs[4 * (i / 4) + 3]][i % 4] = bs[i] := by
  have hi : 4 * (i / 4) + i % 4 = i := Nat.div_add_mod i 4
  have hj : i % 4 = 0 ∨ i % 4 = 1 ∨ i % 4 = 2 ∨ i % 4 = 3 := by omega
  rcases hj with hj | hj | hj | hj <;> simp only [hj, Nat.add_zero] at hi ⊢ <;> simp [hi]

/-- The word `setkey` and `setnonce` write for bytes 4j to 4j+3 (R97). -/
def scriptWord {n : Nat} (bs : Vector Byte n) (j : Nat) (h : 4 * j + 3 < n) : Word :=
  packWord bs[4 * j] bs[4 * j + 1] bs[4 * j + 2] bs[4 * j + 3]

theorem wordByte_scriptWord {n : Nat} (bs : Vector Byte n) (i : Nat) (h : 4 * (i / 4) + 3 < n) :
    wordByte (scriptWord bs (i / 4) h) (i % 4) = bs[i] := by
  rw [scriptWord, wordByte_packWord _ _ _ _ (Nat.mod_lt i (by decide))]
  exact vector_getElem_group bs i h

/-- Settles O50: the writes of each script set every element of the register file, and the bytes of the words written
are the bytes given. -/
theorem keyAndNonceScripts : Obligations.KeyAndNonceScripts := by
  refine fun s rest ht hr hb => ⟨fun k hs => ?_, fun n hs => ?_⟩
  · have hrun := run_guardedWrites RegName.key (fun j => scriptWord k j.val (by omega))
      (fun j g => { g with key := g.key.set j.val (scriptWord k j.val (by omega)) })
      (fun _ _ => rfl) (fun _ _ => rfl) (List.finRange 8) s ht hr hb hs
    rw [foldl_setKey] at hrun
    refine ⟨_, hrun, ?_, rfl⟩
    ext i hi : 1
    simp [State.keyBytes, wordByte_scriptWord]
  · have hrun := run_guardedWrites RegName.nonce (fun j => scriptWord n j.val (by omega))
      (fun j g => { g with nonce := g.nonce.set j.val (scriptWord n j.val (by omega)) })
      (fun _ _ => rfl) (fun _ _ => rfl) (List.finRange 3) s ht hr hb hs
    rw [foldl_setNonce] at hrun
    refine ⟨_, hrun, ?_, rfl⟩
    ext i hi : 1
    simp [State.nonceBytes, wordByte_scriptWord]

end Sys2Proof.Machine

namespace Sys2Proof.Machine

/-! ## The register port -/

theorem ctrlWrite_softReset {v : Word} (h : v[1] = true) (s : State) : s.ctrlWrite v = s.resetEngine := by
  simp [State.ctrlWrite, h]

theorem ctrlWrite_ie {v : Word} (h : v[1] = false) (s : State) :
    s.ctrlWrite v = { s with regs := { s.regs with ie := v[0] } } := by
  simp [State.ctrlWrite, h]

/-- No command changes what its operands read as (R38). -/
theorem exec_operands {s t : State} {i : Instr} (h : exec i s = .next t) :
    t.ina = s.ina ∧ t.inl = s.inl ∧ t.ada = s.ada ∧ t.adl = s.adl ∧ t.outa = s.outa ∧
      t.keyBytes = s.keyBytes ∧ t.nonceBytes = s.nonceBytes := by
  obtain ⟨hina, hinl, hada, hadl, houta, hkey, hnonce, _⟩ := commandFrame s t i h
  simp only [State.ina, State.inl, State.ada, State.adl, State.outa, State.keyBytes, State.nonceBytes, hina, hinl, hada,
    hadl, houta, hkey, hnonce, and_self]

/-- Settles O7: each clause is the register's write rule in the case its premises pick. -/
theorem writesWhileBusyAreIgnored : Obligations.WritesWhileBusyAreIgnored := by
  intro s v hr
  simp only [regWrite_live hr, State.regWriteLive]
  refine ⟨fun hb => ⟨?_, fun i t h => exec_operands h⟩, fun h => ctrlWrite_ie h s,
    fun h => ctrlWrite_softReset h s, ?_, fun hb hf => ?_⟩
  · rintro r (rfl | rfl | rfl | rfl | rfl | rfl | ⟨j, rfl⟩ | ⟨j, rfl⟩)
    · exact if_pos hb
    all_goals exact guarded_busy hb _
  · cases h1 : v[1] <;> cases h3 : v[3] <;> simp [Regs.statusWrite, h1, h3]
  · simp [guarded_idle hb, State.cmdWrite, State.issue, State.ignore, hb, hf]

/-- While reset is released a 32-bit write at a register's offset is the write of that register. -/
theorem portWrite_live {s : State} (hr : s.resetIn = false) {off : BitVec 8} {r : RegName}
    (ho : portReg off .b32 = some r) (v : Word) : s.portWrite off .b32 v = s.regWriteLive r v :=
  (portWrite_reg ho s v).trans (regWrite_live hr r v)

/-- Settles O8: each listed offset is its register's, whose write is guarded by BUSY and whose read is its word. -/
theorem operandWritesStoreTheWord : Obligations.OperandWritesStoreTheWord := by
  refine ⟨fun s v hr hb => ?_, fun s => ?_⟩
  · simp only [portWrite_live hr portReg_inAddr, portWrite_live hr portReg_inLen, portWrite_live hr portReg_adAddr,
      portWrite_live hr portReg_adLen, portWrite_live hr portReg_outAddr, portWrite_live hr (portReg_key _),
      portWrite_live hr (portReg_nonce _), State.regWriteLive, guarded_idle hb, implies_true, and_self]
  · exact ⟨portRead_reg portReg_id s, portRead_reg portReg_version s, portRead_reg portReg_inAddr s,
      portRead_reg portReg_inLen s, portRead_reg portReg_adAddr s, portRead_reg portReg_adLen s,
      portRead_reg portReg_outAddr s, portRead_reg portReg_outLen s, fun j => portRead_reg (portReg_nonce j) s⟩

theorem ctrlWord_toNat (r : Regs) : r.ctrlWord.toNat = if r.ie then 1 else 0 := by
  unfold Regs.ctrlWord
  cases r.ie <;> rfl

/-- Settles O9: a CTRL write is its soft reset or its write of IE, and a CTRL word is IE. -/
theorem ctrlWriteEffect : Obligations.CtrlWriteEffect := by
  intro s v hr
  rw [portWrite_live hr portReg_ctrl]
  refine ⟨fun h => ?_, fun h => ctrlWrite_ie h s, ctrlWord_toNat s.regs⟩
  have reset : s.regWriteLive .ctrl v = s.resetEngine := ctrlWrite_softReset h s
  rw [reset]
  exact ⟨rfl, rfl⟩

/-- Clearing DONE drops IRQ (R39). -/
theorem irq_statusWrite {v : Word} (h : v[1] = true) (s : State) :
    State.irq { s with regs := s.regs.statusWrite v } = false := by
  simp [State.irq, Regs.statusWrite, h]

/-- Settles O10: the write is `Regs.statusWrite`, which leaves IRQ down where it clears DONE. -/
theorem statusWriteEffect : Obligations.StatusWriteEffect := by
  intro s v hr
  rw [portWrite_live hr portReg_status]
  exact ⟨rfl, fun h => irq_statusWrite h s⟩

/-- The fields of STATUS do not overlap, so its value is the sum of theirs (R26). -/
theorem statusWord_toNat (r : Regs) :
    r.statusWord.toNat =
      r.busy.toNat + 2 * r.done.toNat + 4 * r.fatal.toNat + 8 * r.ign.toNat + 256 * r.result.code.toNat := by
  unfold Regs.statusWord
  generalize r.busy = b, r.done = d, r.fatal = f, r.ign = i, r.result.code = c
  revert b d f i c
  decide

/-- Settles O11: a read of STATUS is the STATUS word. -/
theorem statusReadLayout : Obligations.StatusReadLayout := fun s => statusWord_toNat s.regs

/-- Settles O12: such an offset reaches the register `reserved`, which reads 0 and which no write changes. -/
theorem reservedOffsetsReadZero : Obligations.ReservedOffsetsReadZero := by
  intro s off v h4 hoff
  have ho := portReg_reserved off h4 hoff
  refine ⟨portRead_reg ho s, (portWrite_reg ho s v).trans ?_⟩
  exact ite_self s

/-- Settles O13: a write of a read-only register is no change whether or not reset is held. -/
theorem readOnlyAndWriteOnly : Obligations.ReadOnlyAndWriteOnly := by
  intro s v
  have ignored {off : BitVec 8} {r : RegName} (ho : portReg off .b32 = some r) (hw : s.regWriteLive r v = s) :
      s.portWrite off .b32 v = s := by
    rw [portWrite_reg ho, State.regWrite, hw, ite_self]
  exact ⟨ignored portReg_id rfl, ignored portReg_version rfl, ignored portReg_outLen rfl,
    portRead_reg portReg_cmd s, fun j => portRead_reg (portReg_key j) s⟩

/-- An offset at which a register other than a reserved one stands is that register's (R20). -/
theorem offset_of_regAt {off : BitVec 8} {r : RegName} (h : regAt off = some r) (hr : r ≠ .reserved) :
    off = r.offset := by
  have unique : ∀ off : BitVec 8, ∀ r ∈ regAt off, r = .reserved ∨ off = r.offset := by decide
  exact (unique off r h).resolve_left hr

/-- Settles O14: a register's offset reaches it, and an offset that reaches it is its own. -/
theorem registerMapOffsets : Obligations.RegisterMapOffsets := by
  refine ⟨fun r => ?_, fun off r => offset_of_regAt, fun s r v =>
    ⟨portRead_reg (portReg_offset r) s, portWrite_reg (portReg_offset r) s v⟩⟩
  cases r with
  | key j => exact Nat.mod_eq_of_lt (by omega)
  | nonce j => exact Nat.mod_eq_of_lt (by omega)
  | _ => rfl

/-- Settles O15: such an access reaches no register, so it is a port error. -/
theorem malformedAccessTouchesNothing : Obligations.MalformedAccessTouchesNothing := by
  intro s off width v h
  have ho := portReg_eq_none.mpr h
  exact ⟨portWrite_none ho s v, portRead_none ho s⟩

/-- Settles O16: IRQ after each operation, from what the operation does to IE and DONE. -/
theorem irqIsTheLevel : Obligations.IrqIsTheLevel := by
  intro s v i r n
  refine ⟨rfl, ?_, fun h1 hd => ?_, fun h1 h0 => ?_, fun h1 => irq_statusWrite h1 s, ?_, rfl⟩
  · simp [State.irq]
  · simp [ctrlWrite_ie h1, State.irq, hd]
  · simp [ctrlWrite_ie h1, State.irq, h0]
  · simp [State.irq]

/-- A register reads the same whatever the key (R33). -/
theorem regRead_congr {s t : State} (k : Vector Word 8) (h : { t.regs with key := k } = s.regs) (r : RegName) :
    s.regRead r = t.regRead r := by
  cases r <;> simp only [State.regRead, Regs.ctrlWord, Regs.statusWord, ← h]

theorem irq_congr {s t : State} (k : Vector Word 8) (h : { t.regs with key := k } = s.regs) : s.irq = t.irq := by
  simp only [State.irq, ← h]

/-- Settles O17: reads and IRQ are functions of the registers other than the key. -/
theorem readsRevealNoSecret : Obligations.ReadsRevealNoSecret := by
  intro s t r h
  exact ⟨regRead_congr _ h r, irq_congr _ h⟩

end Sys2Proof.Machine

namespace Sys2Proof.Machine

/-! ## Memory: what every step keeps of it -/

theorem issue_mem (s : State) (i : Instr) : (s.issue i).mem = s.mem := by
  rcases issue_cases s i with ⟨_, e⟩ | ⟨_, e⟩ <;> rw [e] <;> rfl

/-- A step of a command leaves memory as it is, or writes the one byte its stage stores, below 2^32 (R72). -/
theorem exec_mem_cases {s t : State} {i : Instr} (h : exec i s = .next t) :
    t.mem = s.mem ∨
      ∃ a v, s.storeAddr i = some a ∧ a < Config.addrSpace ∧ t.mem = s.mem.write a v := by
  rcases exec_next_cases h with ⟨_, rfl⟩ | ⟨_, ⟨r, n, rfl⟩ | ⟨_, rfl, _⟩ | ⟨a, ha, hok, v, _, rfl, _⟩⟩
  · exact .inl (issue_mem s i)
  · exact .inl rfl
  · exact .inl rfl
  · exact .inr ⟨a, v, ha, memOk_lt hok, rfl⟩

theorem exec_keeps_memForm {s t : State} {i : Instr} (h : exec i s = .next t) (hwf : s.mem.wf) :
    t.mem.wf ∧ t.mem.image = s.mem.image := by
  rcases exec_mem_cases h with e | ⟨a, v, _, ha, e⟩ <;> rw [e]
  · exact ⟨hwf, rfl⟩
  · exact ⟨write_wf hwf ha v, write_image _ a v⟩

/-- Settles O42: a command writes memory only by a write below 2^32, the host keeps memory's form, and the reset input
leaves memory alone (R244). -/
theorem stepKeepsTheMemoryForm : Obligations.StepKeepsTheMemoryForm := by
  intro s t hwf h
  obtain ⟨u, hu, hstep⟩ := step_next_cases h
  have hmem : u.mem = s.mem := by
    rcases hu with rfl | ⟨_, _, _, rfl⟩ <;> rfl
  rw [← hmem] at hwf ⊢
  rcases hstep with ⟨i, _, he⟩ | ⟨_, ⟨keepsWf, himage⟩, _⟩ | rfl | rfl
  · exact exec_keeps_memForm he hwf
  · exact ⟨keepsWf hwf, himage⟩
  · exact ⟨hwf, rfl⟩
  · exact ⟨hwf, rfl⟩

/-- Settles O34: the only byte a command's step can write is the one at the address its stage computes. -/
theorem commandMemoryFrame : Obligations.CommandMemoryFrame := by
  intro s t i h
  rcases exec_mem_cases h with e | ⟨b, v, hb, _, e⟩ <;> rw [e]
  · exact ⟨fun _ _ _ _ => rfl, fun _ => rfl⟩
  · refine ⟨fun a ha x hx => ?_, fun hnone => ?_⟩
    · obtain rfl : b = a := Option.some.inj (hb.symm.trans ha)
      exact read_write_other _ v hx
    · simp [hb] at hnone

end Sys2Proof.Machine

namespace Sys2Proof.Machine

/-! ## The accesses of the commands -/

/-- Every access SEAL makes, with the position that makes it (R72, R162). -/
theorem sealAccess_cases {s : State} {acc : AccessKind} {x : Nat} (h : s.sealAccess = some (acc, x)) :
    (∃ j, s.hid.pos = .xformRead j ∧ j < s.plen ∧ acc = .read ∧ x = s.ina + j) ∨
      (∃ j y, s.hid.pos = .xformWrite j y ∧ acc = .write ∧ x = s.outa + j) ∨
      (∃ j, s.hid.pos = .macAd j ∧ j < s.adl ∧ acc = .read ∧ x = s.ada + j) ∨
      ∃ j, s.hid.pos = .tagWrite j ∧ j < 16 ∧ acc = .write ∧ x = s.outa + s.plen + j := by
  unfold State.sealAccess at h
  split at h <;> rename_i hp
  · obtain ⟨hj, ⟨⟩⟩ := Option.ite_none_right_eq_some.mp h
    exact .inl ⟨_, hp, hj, rfl, rfl⟩
  · cases h
    exact .inr (.inl ⟨_, _, hp, rfl, rfl⟩)
  · obtain ⟨hj, ⟨⟩⟩ := Option.ite_none_right_eq_some.mp h
    exact .inr (.inr (.inl ⟨_, hp, hj, rfl, rfl⟩))
  · obtain ⟨hj, ⟨⟩⟩ := Option.ite_none_right_eq_some.mp h
    exact .inr (.inr (.inr ⟨_, hp, hj, rfl, rfl⟩))
  all_goals cases h

/-- Every access OPEN makes, with the position that makes it (R72, R163). -/
theorem openAccess_cases {s : State} {acc : AccessKind} {x : Nat} (h : s.openAccess = some (acc, x)) :
    (∃ j, s.hid.pos = .macAd j ∧ j < s.adl ∧ acc = .read ∧ x = s.ada + j) ∨
      (∃ j, s.hid.pos = .macCt j ∧ j < s.clen ∧ acc = .read ∧ x = s.ina + j) ∨
      (∃ j, s.hid.pos = .tagRead j ∧ j < 16 ∧ acc = .read ∧ x = s.ina + s.clen + j) ∨
      (∃ j, s.hid.pos = .xformRead j ∧ j < s.clen ∧ acc = .read ∧ x = s.ina + j) ∨
      (∃ j y, s.hid.pos = .xformWrite j y ∧ acc = .write ∧ x = s.outa + j) ∨
      ∃ j, s.hid.pos = .zeroFill j ∧ j < s.clen ∧ acc = .write ∧ x = s.outa + j := by
  unfold State.openAccess at h
  split at h <;> rename_i hp
  · obtain ⟨hj, ⟨⟩⟩ := Option.ite_none_right_eq_some.mp h
    exact .inl ⟨_, hp, hj, rfl, rfl⟩
  · obtain ⟨hj, ⟨⟩⟩ := Option.ite_none_right_eq_some.mp h
    exact .inr (.inl ⟨_, hp, hj, rfl, rfl⟩)
  · obtain ⟨hj, ⟨⟩⟩ := Option.ite_none_right_eq_some.mp h
    exact .inr (.inr (.inl ⟨_, hp, hj, rfl, rfl⟩))
  · obtain ⟨hj, ⟨⟩⟩ := Option.ite_none_right_eq_some.mp h
    exact .inr (.inr (.inr (.inl ⟨_, hp, hj, rfl, rfl⟩)))
  · cases h
    exact .inr (.inr (.inr (.inr (.inl ⟨_, _, hp, rfl, rfl⟩))))
  · obtain ⟨hj, ⟨⟩⟩ := Option.ite_none_right_eq_some.mp h
    exact .inr (.inr (.inr (.inr (.inr ⟨_, hp, hj, rfl, rfl⟩))))
  all_goals cases h

theorem inRegion_iff {a n x : Nat} : inRegion a n x = true ↔ a ≤ x ∧ x < a + n := by
  simp [inRegion]

theorem owin_seal {s : State} (ho : s.hid.op = some .sealCmd) : s.owin = s.plen + 16 := by
  simp [State.owin, ho]

theorem owin_open {s : State} (ho : s.hid.op = some .openCmd) : s.owin = s.clen := by
  simp [State.owin, ho]

theorem payLen_seal {s : State} (ho : s.hid.op = some .sealCmd) : s.payLen = s.plen := by
  simp [State.payLen, ho]

theorem payLen_open {s : State} (ho : s.hid.op = some .openCmd) : s.payLen = s.clen := by
  simp [State.payLen, ho]

/-- Byte `j` of the transform is written within the payload (R120). -/
theorem xformWrite_lt {s : State} {j : Nat} {y : Byte} (hd : s.StageData) (hp : s.hid.pos = .xformWrite j y) :
    j < s.payLen := by
  rw [State.StageData, hp] at hd
  obtain ⟨_, _, _, _, hj, _⟩ := hd
  exact hj

/-- An OPEN that reads its claimed tag has passed CHECK, so its input holds a tag (R163, D15). -/
theorem tagRead_inl {s : State} {j : Nat} (ho : s.hid.op = some .openCmd) (hd : s.StageData)
    (hp : s.hid.pos = .tagRead j) : 16 ≤ s.inl := by
  rw [State.StageData, hp] at hd
  obtain ⟨⟨hflaw, _⟩, _⟩ := hd
  by_contra hshort
  simp [State.flaw, ho, State.openFlaw, Nat.lt_of_not_le hshort] at hflaw

/-- Where the running command may make an access: reads in its two input regions, writes in its window (R74). -/
def State.Permits (s : State) (acc : AccessKind) (x : Nat) : Prop :=
  match acc with
  | .read => (s.ada ≤ x ∧ x < s.ada + s.adl) ∨ (s.ina ≤ x ∧ x < s.ina + s.inl)
  | .write => s.outa ≤ x ∧ x < s.outa + s.owin

theorem active_of_permits {s : State} {acc : AccessKind} {x : Nat} (hb : s.regs.busy = true)
    (h : s.Permits acc x) : s.active x = true := by
  simp only [State.active, hb, Bool.true_and, Bool.or_eq_true, inRegion_iff]
  cases acc with
  | read => exact .inl h
  | write => exact .inr h

theorem sealAccess_permits {s : State} {acc : AccessKind} {x : Nat} (ho : s.hid.op = some .sealCmd)
    (hd : s.StageData) (h : s.sealAccess = some (acc, x)) : s.Permits acc x := by
  have hplen : s.plen = s.inl := rfl
  rcases sealAccess_cases h with ⟨j, _, hj, rfl, rfl⟩ | ⟨j, y, hp, rfl, rfl⟩ | ⟨j, _, hj, rfl, rfl⟩ |
    ⟨j, _, hj, rfl, rfl⟩
  · exact .inr (by omega)
  · have hj := xformWrite_lt hd hp
    simp only [State.Permits, owin_seal ho, payLen_seal ho] at hj ⊢
    omega
  · exact .inl (by omega)
  · simp only [State.Permits, owin_seal ho]
    omega

theorem openAccess_permits {s : State} {acc : AccessKind} {x : Nat} (ho : s.hid.op = some .openCmd)
    (hd : s.StageData) (h : s.openAccess = some (acc, x)) : s.Permits acc x := by
  have hclen : s.clen = s.inl - 16 := rfl
  rcases openAccess_cases h with ⟨j, _, hj, rfl, rfl⟩ | ⟨j, _, hj, rfl, rfl⟩ | ⟨j, hp, hj, rfl, rfl⟩ |
    ⟨j, _, hj, rfl, rfl⟩ | ⟨j, y, hp, rfl, rfl⟩ | ⟨j, _, hj, rfl, rfl⟩
  · exact .inl (by omega)
  · exact .inr (by omega)
  · have hinl := tagRead_inl ho hd hp
    exact .inr (by omega)
  · exact .inr (by omega)
  · have hj := xformWrite_lt hd hp
    simp only [State.Permits, owin_open ho, payLen_open ho] at hj ⊢
    omega
  · simp only [State.Permits, owin_open ho]
    omega

/-- Settles O36: each access of each command lies where the command may make it. -/
theorem engineStaysInItsRegions : Obligations.EngineStaysInItsRegions := by
  intro s i acc x _ hd hb ho h
  have hpermits : s.Permits acc x := by
    cases i with
    | sealCmd => exact sealAccess_permits ho hd h
    | openCmd => exact openAccess_permits ho hd h
    | badCmd w => cases h
  refine ⟨active_of_permits hb hpermits, ?_⟩
  rintro rfl
  exact hpermits

/-- The outcome is that of a bus access at `x`, whatever follows the access. -/
def State.Accesses (s : State) (acc : AccessKind) (x : Nat) (o : Out) : Prop :=
  match acc with
  | .read => ∃ k, o = s.busRead x k
  | .write => ∃ v k, o = s.busWrite x v k

/-- The access a command's next step tries to make is the bus access that decides its outcome (R72). -/
theorem exec_accesses {s : State} {i : Instr} {acc : AccessKind} {x : Nat}
    (h : s.nextAccess i = some (acc, x)) : s.Accesses acc x (exec i s) := by
  cases i with
  | sealCmd =>
    simp only [exec, execSealCmd]
    rcases sealAccess_cases h with ⟨j, hp, hj, rfl, rfl⟩ | ⟨j, y, hp, rfl, rfl⟩ | ⟨j, hp, hj, rfl, rfl⟩ |
      ⟨j, hp, hj, rfl, rfl⟩ <;> rw [hp]
    · exact ⟨_, if_pos hj⟩
    · exact ⟨_, _, rfl⟩
    · exact ⟨_, if_pos hj⟩
    · exact ⟨_, _, dif_pos hj⟩
  | openCmd =>
    simp only [exec, execOpenCmd]
    rcases openAccess_cases h with ⟨j, hp, hj, rfl, rfl⟩ | ⟨j, hp, hj, rfl, rfl⟩ | ⟨j, hp, hj, rfl, rfl⟩ |
      ⟨j, hp, hj, rfl, rfl⟩ | ⟨j, y, hp, rfl, rfl⟩ | ⟨j, hp, hj, rfl, rfl⟩ <;> rw [hp]
    · exact ⟨_, if_pos hj⟩
    · exact ⟨_, if_pos hj⟩
    · exact ⟨_, dif_pos hj⟩
    · exact ⟨_, if_pos hj⟩
    · exact ⟨_, _, rfl⟩
    · exact ⟨_, _, if_pos hj⟩
  | badCmd w => cases h

/-- An access the platform does not allow ends the command with BUS_ERR (R205). -/
theorem exec_busErr {s : State} {i : Instr} {acc : AccessKind} {x : Nat} (h : s.nextAccess i = some (acc, x))
    (hok : memOk s.plat acc x = false) : exec i s = .next (s.complete .busErr 0) := by
  have ha := exec_accesses h
  cases acc with
  | read =>
    obtain ⟨k, e⟩ := ha
    exact e.trans (busRead_busErr k hok)
  | write =>
    obtain ⟨v, k, e⟩ := ha
    exact e.trans (busWrite_busErr v k hok)

theorem memOk_csrWindow {p : Platform} {x : Nat} (h : inCsrWindow p x = true) (acc : AccessKind) :
    memOk p acc x = false := by
  simp [memOk, h]

/-- Settles O32: MEM_OK is false in the window, so an access there is a bus error. -/
theorem ownWindowIsABusError : Obligations.OwnWindowIsABusError := by
  intro s x hlo hhi
  have hok := memOk_csrWindow (p := s.plat) (inRegion_iff.mpr ⟨hlo, hhi⟩)
  exact ⟨hok, fun i acc h => ⟨_, exec_busErr h (hok acc), rfl, rfl, rfl⟩⟩

end Sys2Proof.Machine

namespace Sys2Proof.Machine

/-! ## The moves of the engine and the host -/

theorem step_turn {s : State} {c : Turn} {ts : List Turn} (h : s.turns = c :: ts) :
    step s = State.move { s with turns := ts } c := by
  simp only [step, State.advance, h]

theorem step_busy {s : State} (ht : s.turns = []) (hb : s.regs.busy = true) : step s = s.engineStep := by
  simp only [step, State.advance, ht, State.defaultTurn, hb, if_true, State.move]

theorem engineStep_op {s : State} {i : Instr} (h : s.hid.op = some i) : s.engineStep = exec i s := by
  simp only [State.engineStep, h]

theorem hostStep_cons {s : State} {st : HostStmt} {rest : List HostStmt} (h : s.script = st :: rest) :
    s.hostStep = State.hostStmt { s with script := rest } s st := by
  simp only [State.hostStep, h]

/-- Settles O4: a busy engine moves by default or by its turn, and its move is a step of its command. -/
theorem stepRunsTheRunningCommand : Obligations.StepRunsTheRunningCommand := by
  intro s i hb ho
  exact ⟨fun ht => (step_busy ht hb).trans (engineStep_op ho),
    fun ts ht => (step_turn ht).trans (engineStep_op (s := { s with turns := ts }) ho)⟩

/-- The host's turn runs the next statement of its script. -/
theorem step_host {s : State} {ts : List Turn} {st : HostStmt} {rest : List HostStmt} (ht : s.turns = .host :: ts)
    (hs : s.script = st :: rest) :
    step s = State.hostStmt { s with turns := ts, script := rest } { s with turns := ts } st :=
  (step_turn ht).trans (hostStep_cons (s := { s with turns := ts }) hs)

/-! ## Host accesses to active regions (R75) -/

theorem races_iff {s : State} {a n : Nat} :
    s.races a n = true ↔ ∃ x, (a ≤ x ∧ x < a + n) ∧ s.active x = true := by
  simp only [State.races, List.any_eq_true, List.mem_range]
  constructor
  · rintro ⟨k, hk, h⟩
    exact ⟨a + k, by omega, h⟩
  · rintro ⟨x, hx, h⟩
    exact ⟨x - a, by omega, by rwa [Nat.add_sub_cancel' hx.1]⟩

theorem hostFault_of_le {s : State} {a n : Nat} (ha : a + n ≤ 2 ^ 32) :
    s.hostFault a n = if s.races a n then some .hostRace else none :=
  if_neg fun h => Nat.not_lt.mpr ha h.2

theorem hostMemWrite_fault {s : State} {a : Nat} {bs : List Byte} {f : Fault}
    (h : s.hostFault a bs.length = some f) : s.hostMemWrite a bs = .fault f := by
  simp only [State.hostMemWrite, h]

theorem hostMemRead_fault {s : State} {a n : Nat} {f : Fault} (h : s.hostFault a n = some f) :
    s.hostMemRead a n = .fault f := by
  simp only [State.hostMemRead, h]

theorem hostMemWrite_next {s : State} {a : Nat} {bs : List Byte} (h : s.hostFault a bs.length = none) :
    s.hostMemWrite a bs = .next (s.hostWriteSeq a bs) := by
  simp only [State.hostMemWrite, h]

theorem hostMemRead_next {s : State} {a n : Nat} (h : s.hostFault a n = none) :
    s.hostMemRead a n =
      .next { (s.hostReadSeq a n).2 with
        replies := .bytes (s.hostReadSeq a n).1 :: (s.hostReadSeq a n).2.replies } := by
  simp only [State.hostMemRead, h]

/-- Settles O47: an active byte of the statement makes it race, and it then stops in its fault. -/
theorem hostRaceIsAFault : Obligations.HostRaceIsAFault := by
  intro s ts rest a n x bs ht _ hlo hhi hx ha
  have hfault : State.hostFault { s with turns := ts, script := rest } a n = some .hostRace := by
    rw [hostFault_of_le ha]
    exact if_pos (races_iff.mpr ⟨x, ⟨hlo, hhi⟩, hx⟩)
  refine ⟨fun hs => (step_host ht hs).trans (hostMemRead_fault hfault), ?_⟩
  rintro hs rfl
  exact (step_host ht hs).trans (hostMemWrite_fault hfault)

/-! ## What the host reads (R78) -/

theorem hostReadByte_coherent {s : State} {x : Nat} (hx : inCsrWindow s.plat x = false)
    (hc : s.plat.coherent = true) : s.hostReadByte x = (s.mem.read x, s) := by
  simp [State.hostReadByte, State.cacheFill, hx, hc]

theorem hostReadByte_uncached {s : State} {x : Nat} (hx : inCsrWindow s.plat x = false)
    (hc : s.plat.coherent = false) (hf : findCell x s.cache = none) :
    s.hostReadByte x = (s.mem.read x, { s with cache := putCell x (s.mem.read x) s.cache }) := by
  simp [State.hostReadByte, State.cacheFill, hx, hc, hf]

/-- A read of a cached byte gives either copy, and the copy kept is the one it gave. -/
theorem hostReadByte_cached {s : State} {x : Nat} {b : Byte} (hx : inCsrWindow s.plat x = false)
    (hc : s.plat.coherent = false) (hf : findCell x s.cache = some b) :
    ∃ v, (v = b ∨ v = s.mem.read x) ∧
      s.hostReadByte x = (v, { s with draws := s.draws + 1, cache := putCell x v s.cache }) := by
  refine ⟨if Config.staleRead s.draws then b else s.mem.read x, ?_, ?_⟩
  · split
    · exact .inl rfl
    · exact .inr rfl
  · simp [State.hostReadByte, State.cacheFill, hx, hc, hf]

/-- Settles O49: the three cases of a host read, by the platform and the cache. -/
theorem staleReadsAreTheOnlyOthers : Obligations.StaleReadsAreTheOnlyOthers := by
  intro s x hx
  refine ⟨hostReadByte_coherent hx, fun hc => ⟨fun hf => ?_, fun b hf => ?_, ?_⟩⟩
  · rw [hostReadByte_uncached hx hc hf]
  · obtain ⟨v, hv, e⟩ := hostReadByte_cached hx hc hf
    rwa [e]
  · obtain ⟨_, _, hmem, _⟩ := hostReadByte_frame s x
    exact hmem

/-! ## A host write reads back (R60, R76) -/

/-- Every copy of byte `x` the host can read is `v`: memory's, and on a platform that is not coherent the cached one
if there is one (R78). -/
def State.HostSees (s : State) (x : Nat) (v : Byte) : Prop :=
  s.mem.read x = v ∧ (s.plat.coherent = false → ∀ b ∈ findCell x s.cache, b = v)

@[simp] theorem cacheFill_mem (s : State) (a : Nat) (v : Byte) : (s.cacheFill a v).mem = s.mem := by
  rcases cacheFill_cases s a v with e | e <;> rw [e]

@[simp] theorem cacheFill_plat (s : State) (a : Nat) (v : Byte) : (s.cacheFill a v).plat = s.plat := by
  rcases cacheFill_cases s a v with e | e <;> rw [e]

theorem findCell_cacheFill {s : State} (hc : s.plat.coherent = false) (a x : Nat) (v : Byte) :
    findCell x (s.cacheFill a v).cache = if x = a then some v else findCell x s.cache := by
  simp [State.cacheFill, hc, findCell_putCell]

theorem cacheFill_sees_same {s : State} {a : Nat} {v : Byte} (h : s.mem.read a = v) :
    (s.cacheFill a v).HostSees a v := by
  refine ⟨by rwa [cacheFill_mem], fun hc b hb => ?_⟩
  rw [cacheFill_plat] at hc
  rw [findCell_cacheFill hc, if_pos rfl] at hb
  exact (Option.some.inj hb).symm

theorem cacheFill_sees_other {s : State} {a x : Nat} {v : Byte} (hx : x ≠ a) (w : Byte) (h : s.HostSees x v) :
    (s.cacheFill a w).HostSees x v := by
  obtain ⟨hmem, hcache⟩ := h
  refine ⟨by rwa [cacheFill_mem], fun hc b hb => ?_⟩
  rw [cacheFill_plat] at hc
  rw [findCell_cacheFill hc, if_neg hx] at hb
  exact hcache hc b hb

theorem hostReadByte_value {s : State} {x : Nat} {v : Byte} (hx : inCsrWindow s.plat x = false)
    (h : s.HostSees x v) : (s.hostReadByte x).1 = v := by
  obtain ⟨hmem, hcache⟩ := h
  obtain ⟨hcoherent, hstale⟩ := staleReadsAreTheOnlyOthers s x hx
  cases hc : s.plat.coherent with
  | true => rwa [hcoherent hc]
  | false =>
    obtain ⟨hnone, hsome, _⟩ := hstale hc
    cases hf : findCell x s.cache with
    | none => exact (hnone hf).trans hmem
    | some b =>
      rcases hsome b hf with e | e
      · exact e.trans (hcache hc b hf)
      · exact e.trans hmem

/-- The copy of a byte the host keeps after reading it is the one it read. -/
theorem hostReadByte_fills {s : State} {x : Nat} (hx : inCsrWindow s.plat x = false) :
    ∃ d, (s.hostReadByte x).2 = State.cacheFill { s with draws := d } x (s.hostReadByte x).1 := by
  unfold State.hostReadByte
  rw [if_neg (by simp [hx])]
  split
  · exact ⟨_, rfl⟩
  · exact ⟨_, rfl⟩

theorem hostReadByte_keeps_sees {s : State} {x y : Nat} {v : Byte} (hy : inCsrWindow s.plat y = false)
    (h : s.HostSees x v) : (s.hostReadByte y).2.HostSees x v := by
  obtain ⟨d, e⟩ := hostReadByte_fills hy
  rw [e]
  by_cases hx : x = y
  · subst hx
    rw [hostReadByte_value hy h]
    exact cacheFill_sees_same h.1
  · exact cacheFill_sees_other hx _ h

/-- None of the `n` bytes from `a` up is in the register window (R68). -/
abbrev State.OutsideWindow (s : State) (a n : Nat) : Prop := ∀ k < n, inCsrWindow s.plat (a + k) = false

theorem outsideWindow_head {s : State} {a n : Nat} (h : s.OutsideWindow a (n + 1)) :
    inCsrWindow s.plat a = false :=
  h 0 (Nat.zero_lt_succ n)

theorem outsideWindow_tail {s : State} {a n : Nat} (h : s.OutsideWindow a (n + 1)) :
    s.OutsideWindow (a + 1) n := by
  intro k hk
  rw [Nat.add_right_comm, Nat.add_assoc]
  exact h (k + 1) (Nat.succ_lt_succ hk)

theorem outsideWindow_congr {s u : State} {a n : Nat} (hplat : u.plat = s.plat) (h : s.OutsideWindow a n) :
    u.OutsideWindow a n :=
  fun k hk => (congrArg (inCsrWindow · (a + k)) hplat).trans (h k hk)

theorem hostReadByte_outsideWindow {s : State} {a b n : Nat} (h : s.OutsideWindow b n) :
    (s.hostReadByte a).2.OutsideWindow b n := by
  obtain ⟨_, _, _, hplat, _⟩ := hostReadByte_frame s a
  exact outsideWindow_congr hplat h

theorem hostWriteByte_outsideWindow {s : State} {a b n : Nat} (v : Byte) (h : s.OutsideWindow b n) :
    (s.hostWriteByte a v).OutsideWindow b n := by
  obtain ⟨_, _, hplat, _⟩ := hostWriteByte_frame s a v
  exact outsideWindow_congr hplat h

/-- A read of bytes of which the host sees one value each gives those values. -/
theorem hostReadSeq_value {s : State} {a : Nat} {bs : List Byte} (hwin : s.OutsideWindow a bs.length)
    (hsees : ∀ k (hk : k < bs.length), s.HostSees (a + k) bs[k]) : (s.hostReadSeq a bs.length).1 = bs := by
  induction bs generalizing s a with
  | nil => rfl
  | cons b bs ih =>
    have hhead := outsideWindow_head hwin
    refine congrArg₂ List.cons (hostReadByte_value hhead (hsees 0 (Nat.zero_lt_succ _)))
      (ih (hostReadByte_outsideWindow (outsideWindow_tail hwin)) fun k hk => ?_)
    rw [Nat.add_right_comm, Nat.add_assoc]
    exact hostReadByte_keeps_sees hhead (hsees (k + 1) (Nat.succ_lt_succ hk))

theorem hostWriteByte_outside {s : State} {a : Nat} (ha : inCsrWindow s.plat a = false) (v : Byte) :
    s.hostWriteByte a v = State.cacheFill { s with mem := s.mem.write a v } a v := by
  simp [State.hostWriteByte, ha]

theorem hostWriteByte_sees_same {s : State} {a : Nat} (ha : inCsrWindow s.plat a = false) (v : Byte) :
    (s.hostWriteByte a v).HostSees a v := by
  rw [hostWriteByte_outside ha]
  exact cacheFill_sees_same (read_write_same s.mem a v)

theorem hostWriteByte_sees_other {s : State} {a x : Nat} {v : Byte} (ha : inCsrWindow s.plat a = false)
    (hx : x ≠ a) (w : Byte) (h : s.HostSees x v) : (s.hostWriteByte a w).HostSees x v := by
  rw [hostWriteByte_outside ha]
  exact cacheFill_sees_other hx w ⟨(read_write_other s.mem w hx).trans h.1, h.2⟩

/-- A host write outside the register window is a write of its bytes to memory (R60, R76). -/
theorem hostWriteSeq_mem_eq {s : State} {a : Nat} {bs : List Byte} (h : s.OutsideWindow a bs.length) :
    (s.hostWriteSeq a bs).mem = s.mem.writeSeq a bs := by
  induction bs generalizing s a with
  | nil => rfl
  | cons b bs ih =>
    rw [State.hostWriteSeq, ih (hostWriteByte_outsideWindow b (outsideWindow_tail h)),
      hostWriteByte_outside (outsideWindow_head h), cacheFill_mem, Memory.writeSeq]

theorem hostWriteSeq_sees_below {s : State} {a x : Nat} {v : Byte} {bs : List Byte}
    (h : s.OutsideWindow a bs.length) (hx : x < a) (hsees : s.HostSees x v) :
    (s.hostWriteSeq a bs).HostSees x v := by
  induction bs generalizing s a with
  | nil => exact hsees
  | cons b bs ih =>
    exact ih (hostWriteByte_outsideWindow b (outsideWindow_tail h)) (Nat.lt_succ_of_lt hx)
      (hostWriteByte_sees_other (outsideWindow_head h) (Nat.ne_of_lt hx) b hsees)

/-- After a host write the host sees of each byte what it wrote there. -/
theorem hostWriteSeq_sees {s : State} {a : Nat} {bs : List Byte} (h : s.OutsideWindow a bs.length)
    (k : Nat) (hk : k < bs.length) : (s.hostWriteSeq a bs).HostSees (a + k) bs[k] := by
  induction bs generalizing s a k with
  | nil => cases hk
  | cons b bs ih =>
    have htail := hostWriteByte_outsideWindow (a := a) b (outsideWindow_tail h)
    cases k with
    | zero =>
      exact hostWriteSeq_sees_below (s := s.hostWriteByte a b) htail (Nat.lt_succ_self a)
        (hostWriteByte_sees_same (outsideWindow_head h) b)
    | succ k =>
      rw [← Nat.add_assoc, Nat.add_right_comm]
      exact ih htail k (Nat.lt_of_succ_lt_succ hk)

theorem active_congr {s u : State} (hr : u.regs = s.regs) (hh : u.hid = s.hid) (x : Nat) :
    u.active x = s.active x := by
  simp only [State.active, State.ada, State.adl, State.ina, State.inl, State.outa, State.owin, State.plen,
    State.clen, hr, hh]

theorem hostFault_inactive {s : State} {a n : Nat} (ha : a + n ≤ 2 ^ 32)
    (h : ∀ x, a ≤ x → x < a + n → s.active x = false) : s.hostFault a n = none := by
  rw [hostFault_of_le ha]
  refine if_neg fun hraces => ?_
  obtain ⟨x, ⟨hlo, hhi⟩, hx⟩ := races_iff.mp hraces
  simp [h x hlo hhi] at hx

/-- No byte of the host's access is active, so it raises no fault while it stays below 2^32 (R60, R75). -/
abbrev State.Inactive (s : State) (a n : Nat) : Prop := ∀ x, a ≤ x → x < a + n → s.active x = false

theorem inactive_congr {s u : State} (hr : u.regs = s.regs) (hh : u.hid = s.hid) {a n : Nat}
    (h : s.Inactive a n) : u.Inactive a n :=
  fun x hlo hhi => (active_congr hr hh x).trans (h x hlo hhi)

/-- A host write of inactive bytes outside the window writes memory, leaves the host one value of each byte to see, and
does not touch the engine. -/
theorem step_memWrite {s : State} {ts : List Turn} {rest : List HostStmt} {a : Nat} {bs : List Byte}
    (ht : s.turns = .host :: ts) (hs : s.script = .memWrite a bs :: rest) (ha : a + bs.length ≤ 2 ^ 32)
    (hact : s.Inactive a bs.length) (hwin : s.OutsideWindow a bs.length) :
    ∃ t, step s = .next t ∧ t.mem = s.mem.writeSeq a bs ∧ t.regs = s.regs ∧ t.hid = s.hid ∧ t.plat = s.plat ∧
      t.turns = ts ∧ t.script = rest ∧ t.replies = s.replies ∧
      ∀ k (hk : k < bs.length), t.HostSees (a + k) bs[k] := by
  obtain ⟨hregs, hhid, hplat, _, hturns, hscript, hreplies⟩ :=
    hostWriteSeq_frame { s with turns := ts, script := rest } a bs
  refine ⟨_, (step_host ht hs).trans (hostMemWrite_next (hostFault_inactive ha (inactive_congr rfl rfl hact))),
    ?_, hregs, hhid, hplat, hturns, hscript, hreplies, ?_⟩
  · exact hostWriteSeq_mem_eq hwin
  · exact hostWriteSeq_sees hwin

/-- A host read of inactive bytes outside the window returns what the host sees of them, and does not touch the
engine. -/
theorem step_memRead {s : State} {ts : List Turn} {rest : List HostStmt} {a : Nat} {bs : List Byte}
    (ht : s.turns = .host :: ts) (hs : s.script = .memRead a bs.length :: rest) (ha : a + bs.length ≤ 2 ^ 32)
    (hact : s.Inactive a bs.length) (hwin : s.OutsideWindow a bs.length)
    (hsees : ∀ k (hk : k < bs.length), s.HostSees (a + k) bs[k]) :
    ∃ u, step s = .next u ∧ u.replies = .bytes bs :: s.replies ∧ u.script = rest ∧ u.mem = s.mem ∧
      u.regs = s.regs ∧ u.hid = s.hid := by
  obtain ⟨hregs, hhid, hmem, _, _, _, hscript, hreplies⟩ :=
    hostReadSeq_frame { s with turns := ts, script := rest } a bs.length
  refine ⟨_, (step_host ht hs).trans (hostMemRead_next (hostFault_inactive ha (inactive_congr rfl rfl hact))),
    ?_, hscript, hmem, hregs, hhid⟩
  exact congrArg₂ (fun b l => Reply.bytes b :: l) (hostReadSeq_value hwin hsees) hreplies

/-- Settles O48: the write leaves the host one value of each byte to see, and the read gives those values. -/
theorem hostWriteThenRead : Obligations.HostWriteThenRead := by
  intro s rest a bs ht ha hout hs
  have hact : s.Inactive a bs.length := fun x hlo hhi => (hout x hlo hhi).1
  have hwin : s.OutsideWindow a bs.length := fun k hk =>
    (hout (a + k) (Nat.le_add_right a k) (Nat.add_lt_add_left hk a)).2
  obtain ⟨t, hstep, hmem, hregs, hhid, hplat, hturns, hscript, hreplies, hsees⟩ := step_memWrite ht hs ha hact hwin
  obtain ⟨u, hstep', hreplies', hscript', hmem', hregs', hhid'⟩ :=
    step_memRead hturns hscript ha (inactive_congr hregs hhid hact) (outsideWindow_congr hplat hwin) hsees
  exact ⟨t, u, hstep, hstep', hmem, hregs, hhid, hreplies'.trans (congrArg _ hreplies), hscript', hmem',
    hregs'.trans hregs, hhid'.trans hhid⟩

end Sys2Proof.Machine

namespace Sys2Proof.Machine

/-! ## The decoder and the encoder -/

/-- RSVD is the word's upper 28 bits (R90). -/
theorem cmdRsvd_toNat (w : Word) : (cmdRsvd w).toNat = w.toNat / 16 := by
  rw [cmdRsvd, BitVec.extractLsb'_toNat, Nat.shiftRight_eq_div_pow]
  omega

/-- OP is the word's lower 4 bits (R90). -/
theorem cmdOp_toNat (w : Word) : (cmdOp w).toNat = w.toNat % 16 := by
  rw [cmdOp, BitVec.extractLsb'_toNat, Nat.shiftRight_zero]

theorem rsvd_append_op (w : Word) : cmdRsvd w ++ cmdOp w = w := by
  apply BitVec.eq_of_toNat_eq
  rw [BitVec.toNat_append, ← Nat.shiftLeft_add_eq_or_of_lt (cmdOp w).isLt, cmdRsvd_toNat, cmdOp_toNat,
    Nat.shiftLeft_eq]
  omega

/-- A word is decoded to SEAL, to OPEN, or to the reserved command that carries it (R94). -/
theorem decode_cases (w : Word) : decode w = .sealCmd ∨ decode w = .openCmd ∨ decode w = .badCmd w := by
  unfold decode
  split_ifs <;> simp

/-- A word is RSVD above OP, which is how the encoder builds the words the decoder reads as SEAL and OPEN (R92). -/
theorem encode_decode (w : Word) : encode (decode w) = w := by
  unfold decode
  split_ifs with hrsvd hseal hopen
  · rfl
  · rw [encode, ← hseal, ← not_not.mp hrsvd, rsvd_append_op]
  · rw [encode, ← hopen, ← not_not.mp hrsvd, rsvd_append_op]
  · rfl

/-- A well-formed reserved command carries neither the word of SEAL nor that of OPEN (R93). -/
theorem badCmd_wf_iff {w : Word} : (Instr.badCmd w).wf = true ↔ w ≠ encode .sealCmd ∧ w ≠ encode .openCmd := by
  simp [Instr.wf, encode]

theorem decode_encode {i : Instr} (hwf : i.wf = true) : decode (encode i) = i := by
  cases i with
  | sealCmd | openCmd => decide
  | badCmd w =>
    obtain ⟨hseal, hopen⟩ := badCmd_wf_iff.mp hwf
    have hw := encode_decode w
    rcases decode_cases w with e | e | e
    · exact absurd (e ▸ hw).symm hseal
    · exact absurd (e ▸ hw).symm hopen
    · exact e

/-- Settles O3: a word is the word of its decoding, so a reserved command's word can decode to nothing else. -/
theorem decodeEncodeAgree : Obligations.DecodeEncodeAgree :=
  ⟨fun _ => decode_encode, fun w => ⟨encode_decode w, decode_wf w⟩⟩

/-- Settles O2: the fields the decoder compares are the quotient and the remainder of the word by 16. -/
theorem decodeReadsTheFields : Obligations.DecodeReadsTheFields := by
  intro w
  simp only [decode, ne_eq, ← BitVec.toNat_inj, cmdRsvd_toNat, cmdOp_toNat]
  rfl

/-- Settles O1: each is the word of a well-formed command. -/
theorem decodesTheSpecWords : Obligations.DecodesTheSpecWords :=
  ⟨decode_encode (i := .sealCmd) rfl, decode_encode (i := .openCmd) rfl, decode_encode (i := .badCmd _) rfl,
    decode_encode (i := .badCmd _) rfl, decode_encode (i := .badCmd _) rfl, decode_encode (i := .badCmd _) rfl,
    decode_encode (i := .badCmd _) rfl⟩

/-! ## The scripts that start a command -/

/-- A run is a run of its first steps and then of the rest. -/
theorem run_add {M : Host.Core} (j k : Nat) :
    ∀ {s t : M.State}, M.run j s = .next t → M.run (j + k) s = M.run k t := by
  induction j with
  | zero =>
    intro s t h
    cases h
    rw [Nat.zero_add]
  | succ j ih =>
    intro s t h
    rw [Nat.succ_add]
    cases hstep : M.step s with
    | next u => exact (run_succ hstep _).trans (ih ((run_succ hstep j).symm.trans h))
    | fault _ | refused _ => simp [Host.Core.run, hstep] at h

/-- A write of a register that BUSY guards (R38), with what it does to the registers. -/
structure GuardedWrite where
  reg : RegName
  word : Word
  store : Regs → Regs
  live : ∀ s : State, s.regWriteLive reg word = s.guarded store := by intro; rfl
  keeps_busy : ∀ g, (store g).busy = g.busy := by intro; rfl

/-- The operand writes of `scriptOperands` (R97). -/
def operandWrites (a al d dl o : Word) : List GuardedWrite :=
  [{ reg := .inAddr, word := a, store := fun g => { g with inAddr := a } },
   { reg := .inLen, word := al, store := fun g => { g with inLen := al } },
   { reg := .adAddr, word := d, store := fun g => { g with adAddr := d } },
   { reg := .adLen, word := dl, store := fun g => { g with adLen := dl } },
   { reg := .outAddr, word := o, store := fun g => { g with outAddr := o } }]

/-- The operand writes of `seal` and `open` store the operands, one step each (R97). -/
theorem run_scriptOperands {s : State} {rest : List HostStmt} {a al d dl o : Word} (ht : s.turns = [])
    (hr : s.resetIn = false) (hb : s.regs.busy = false) (hs : s.script = scriptOperands a al d dl o ++ rest) :
    Host.Core.run core 5 s =
      .next { s with
        script := rest
        regs := { s.regs with inAddr := a, inLen := al, adAddr := d, adLen := dl, outAddr := o } } :=
  run_guardedWrites GuardedWrite.reg GuardedWrite.word GuardedWrite.store (fun s w => w.live s)
    GuardedWrite.keeps_busy (operandWrites a al d dl o) s ht hr hb hs

/-- A CMD write on an idle engine that is not fatally locked accepts the command its word decodes to, at CHECK
(R46, R160). -/
theorem step_cmdWrite {s : State} {w : Word} {rest : List HostStmt} (ht : s.turns = []) (hr : s.resetIn = false)
    (hb : s.regs.busy = false) (hf : s.regs.fatal = false) (hh : s.hid = Hidden.zero)
    (hs : s.script = wr32 .cmd w :: rest) :
    step s = .next { s with
      script := rest
      regs := { s.regs with busy := true, done := false, result := .ok, outLen := 0 }
      hid := Hidden.fresh (some (decode w)) .check } := by
  rw [step_wr32 ht hb hs]
  simp [State.regWrite, State.regWriteLive, State.cmdWrite, State.issue, State.accept, Hidden.fresh, hr, hb, hf, hh]

/-- Settles O51: the operand writes store the operands, and the CMD write then accepts the command. -/
theorem commandScripts : Obligations.CommandScripts := by
  intro s rest a al d dl o ht hr hb hf hh t
  have hrun {w : Word} (hs : s.script = scriptOperands a al d dl o ++ wr32 .cmd w :: rest) :
      Host.Core.run core 6 s = .next (t (decode w)) := by
    refine (run_add 5 1 (run_scriptOperands ht hr hb hs)).trans (run_succ ?_ 0)
    exact step_cmdWrite ht hr hb hf hh rfl
  obtain ⟨decode_seal, decode_open, _⟩ := decodesTheSpecWords
  refine ⟨fun hs => ?_, fun hs => ?_⟩
  · exact decode_seal ▸ hrun (hs.trans (List.append_assoc ..))
  · exact decode_open ▸ hrun (hs.trans (List.append_assoc ..))

end Sys2Proof.Machine

namespace Sys2Proof.Machine

/-! ## The key schedule -/

/-- Byte `j` of the one-time key is keystream byte `j` of the command, in block 0 (R111, R113). -/
theorem deriveOtk_getElem (p : Platform) (k : Key) (n : Nonce) (j : Fin 32) :
    (deriveOtk p k n)[j] = ksByte p k n j.val := by
  have hblock : j.val / 64 = 0 := by omega
  have hbyte : j.val % 64 = j.val := by omega
  simp [deriveOtk, ksByte, hblock, hbyte]

/-- A fatal result ends the command in the same state whether FATAL was set before or not (R201, R210). -/
theorem complete_fatal {r : Result} (hr : r.isFatal = true) (s : State) : s.complete r 0 = s.ended s.mem r 0 := by
  simp [State.complete, State.ended, hr]

/-- Settles O20: KEYSCHED derives OTK where the collaborator accepts, and else completes with CONSTRUCT. -/
theorem keyScheduleOutcome : Obligations.KeyScheduleOutcome := by
  intro s hp
  have hseal : exec .sealCmd s = .next (s.keySched (.xformRead 0)) := by
    simp only [exec, execSealCmd, hp]
  have hopen : exec .openCmd s = .next (s.keySched (.macAd 0)) := by
    simp only [exec, execOpenCmd, hp]
  rw [hseal, hopen]
  refine ⟨fun hok => ?_, fun hrefused => ?_⟩
  · refine ⟨deriveOtk s.plat s.keyBytes s.nonceBytes, deriveOtk_getElem _ _ _, ?_, ?_⟩ <;>
      simp [State.keySched, hok]
  · simp [State.keySched, hrefused, complete_fatal isFatal_construct]

/-! ## What the stages keep of the hidden data -/

theorem stageData_of_idle {s : State} (hp : s.hid.pos = .idle) : s.StageData := by
  rw [State.StageData, hp]
  trivial

theorem flaw_seal {s : State} (ho : s.hid.op = some .sealCmd) : s.flaw = s.sealFlaw := by
  simp [State.flaw, ho]

theorem flaw_open {s : State} (ho : s.hid.op = some .openCmd) : s.flaw = s.openFlaw := by
  simp [State.flaw, ho]

theorem macPayload_seal {s : State} (ho : s.hid.op = some .sealCmd) : s.macPayload = s.hid.outBytes := by
  simp [State.macPayload, ho]

theorem macPayload_open {s : State} (ho : s.hid.op = some .openCmd) : s.macPayload = s.hid.ctBytes := by
  simp [State.macPayload, ho]

/-- The transform of SEAL is not conditional on a tag (R144). -/
theorem xformAllowed_seal {s : State} (ho : s.hid.op = some .sealCmd) : s.XformAllowed := by
  simp [State.XformAllowed, ho]

theorem ksDone_seal {s : State} (ho : s.hid.op = some .sealCmd) (hks : s.hid.kspos = 64 + s.plen)
    (hout : s.hid.outBytes.length = s.plen) : s.KsDone := by
  simp [State.KsDone, ho, hks, hout]

theorem ksDone_open {s : State} (ho : s.hid.op = some .openCmd) (hks : s.hid.kspos = 64)
    (hout : s.hid.outBytes = []) : s.KsDone := by
  simp [State.KsDone, ho, hks, hout]

/-- A bus write inside a command completes it, or goes on with nothing but memory changed. -/
theorem busWrite_proceeds_mem {s : State} {P : State → Prop} (x : Nat) (v : Byte) {k : State → State}
    (hk : ∀ m, P (k { s with mem := m })) : s.Proceeds P (s.busWrite x v k) := by
  unfold State.busWrite
  split
  · exact .inl ⟨_, _, rfl⟩
  · split
    · trivial
    · exact .inr (hk _)

/-- CHECK goes on to KEYSCHED only with no flaw found (R150). -/
theorem checkStage_stageData {s : State} (hd : s.StageData) (hp : s.hid.pos = .check) :
    s.Proceeds State.StageData (.next (s.checkStage s.flaw)) := by
  rw [State.StageData, hp] at hd
  rcases checkStage_cases s s.flaw with ⟨r, _, e⟩ | ⟨hflaw, e⟩ <;> rw [e]
  · exact .inl ⟨r, 0, rfl⟩
  · exact .inr ⟨by rw [goto_hid, hd]; rfl, hflaw⟩

/-- `s` just past its key schedule, at position `q`: a fresh command's hidden state but for OTK and KSPOS (R110, R111). -/
def State.pastKeySched (s : State) (q : Pos) : State :=
  { s with hid := { Hidden.fresh s.hid.op q with otk := s.otkOf, kspos := 64 } }

theorem keySched_fresh {s : State} {q : Pos} (hfresh : s.hid = Hidden.fresh s.hid.op .keySched)
    (hok : ksInitOk s.plat s.keyBytes s.nonceBytes = true) : s.keySched q = s.pastKeySched q := by
  rw [State.keySched, if_pos hok, hfresh]
  rfl

/-- KEYSCHED, entered with a fresh command's hidden state, is refused or derives OTK and KSPOS (R110, R111, R114). -/
theorem keySched_stageData {s : State} {q : Pos} (hd : s.StageData) (hp : s.hid.pos = .keySched)
    (hq : (s.pastKeySched q).Keyed → (s.pastKeySched q).StageData) :
    s.Proceeds State.StageData (.next (s.keySched q)) := by
  rw [State.StageData, hp] at hd
  obtain ⟨hfresh, hflaw⟩ := hd
  rcases keySched_cases s q with ⟨_, e⟩ | ⟨hok, _⟩
  · exact .inl ⟨_, _, e⟩
  · rw [keySched_fresh hfresh hok]
    exact .inr (hq ⟨hflaw, hok, rfl⟩)

theorem xformRead_stageData {s : State} {i : Nat} (hd : s.StageData) (hp : s.hid.pos = .xformRead i)
    (hi : i < s.payLen) : s.Proceeds State.StageData (s.xformRead i) := by
  rw [State.StageData, hp] at hd
  obtain ⟨hkeyed, hallowed, hks, hout, -, hnone⟩ := hd
  exact busRead_proceeds _ fun _ => ⟨hkeyed, hallowed, hks, hout, hi, hnone⟩

/-- The write of a transformed byte advances OUTBYTES and KSPOS together (R120). -/
theorem xformWrite_stageData {s : State} {i : Nat} {y : Byte} (hd : s.StageData)
    (hp : s.hid.pos = .xformWrite i y) : s.Proceeds State.StageData (s.xformWrite i y) := by
  rw [State.StageData, hp] at hd
  obtain ⟨hkeyed, hallowed, hks, hout, hi, hnone⟩ := hd
  exact busWrite_proceeds_mem _ _ fun _ =>
    ⟨hkeyed, hallowed, congrArg (· + 1) hks, by simp [hout], hi, hnone⟩

theorem macReadAd_stageData {s : State} {i : Nat} (hd : s.StageData) (hp : s.hid.pos = .macAd i)
    (hi : i < s.adl) : s.Proceeds State.StageData (s.macReadAd i) := by
  rw [State.StageData, hp] at hd
  obtain ⟨hkeyed, hks, had, -, hct⟩ := hd
  exact busRead_proceeds _ fun _ => ⟨hkeyed, hks, by simp [had], hi, hct⟩

/-- MACBUF is assembled of all the AD and the whole payload (R131). -/
theorem macAssemble_stageData {s : State} {c : List Byte} (hkeyed : s.Keyed) (hks : s.KsDone)
    (had : s.hid.adBytes.length = s.adl) (hc : s.macPayload = c) (hlen : c.length = s.payLen) :
    (s.macAssemble c).StageData := by
  subst hc
  exact ⟨hkeyed, hks, had, hlen, rfl⟩

theorem tagCompute_tagged {s : State} (hd : s.StageData) (hp : s.hid.pos = .tagCompute) (q : Pos) :
    (s.tagCompute q).Keyed ∧ (s.tagCompute q).Tagged := by
  rw [State.StageData, hp] at hd
  obtain ⟨hkeyed, hasm⟩ := hd
  exact ⟨hkeyed, hasm, rfl⟩

/-- The transform of OPEN is entered with the tag found valid, ZEROFILL with it found invalid (R144). -/
theorem tagVerdict_stageData {s : State} (ho : s.hid.op = some .openCmd) (hd : s.StageData)
    (hp : s.hid.pos = .tagVerdict) : s.Proceeds State.StageData (.next s.tagVerdict) := by
  rw [State.StageData, hp] at hd
  obtain ⟨hkeyed, ⟨⟨hks, -, -, hmac⟩, htag⟩, hdiff⟩ := hd
  obtain ⟨hkspos, hout⟩ := hks.2 ho
  rcases tagVerdict_cases s with ⟨hvalid, e⟩ | ⟨hinvalid, e⟩ <;> rw [e]
  · rw [macPayload_open ho] at hmac
    refine .inr ⟨hkeyed, fun _ => ⟨hvalid, hdiff, htag, hmac⟩, hkspos, by simp [hout], Nat.zero_le _, ?_⟩
    simp [ho]
  · exact .inr ⟨hkeyed, hinvalid, Nat.zero_le _⟩

/-- A step of SEAL keeps what its stages say of the hidden data (R162). -/
theorem execSealCmd_stageData {s : State} (ho : s.hid.op = some .sealCmd) (hf : s.hid.pos.fits .sealCmd = true)
    (hd : s.StageData) : s.Proceeds State.StageData (execSealCmd s) := by
  have hlen : s.payLen = s.plen := payLen_seal ho
  unfold execSealCmd
  cases hp : s.hid.pos with
  | check => exact flaw_seal ho ▸ checkStage_stageData hd hp
  | keySched =>
    exact keySched_stageData hd hp fun hkeyed =>
      ⟨hkeyed, xformAllowed_seal ho, rfl, rfl, Nat.zero_le _, fun _ => ⟨rfl, rfl⟩⟩
  | xformRead i =>
    dsimp only
    split
    · next hi => exact xformRead_stageData hd hp (hlen ▸ hi)
    · next hi =>
      rw [State.StageData, hp] at hd
      obtain ⟨hkeyed, -, hks, hout, hle, hnone⟩ := hd
      obtain ⟨had, hct⟩ := hnone ho
      obtain rfl : i = s.plen := by omega
      exact .inr ⟨hkeyed, ksDone_seal ho hks hout, by simp [had], Nat.zero_le _, hct⟩
  | xformWrite i y => exact xformWrite_stageData hd hp
  | macAd i =>
    dsimp only
    split
    · next hi => exact macReadAd_stageData hd hp hi
    · next hi =>
      rw [State.StageData, hp] at hd
      obtain ⟨hkeyed, hks, had, hle, -⟩ := hd
      obtain ⟨-, hout⟩ := hks.1 ho
      exact .inr (macAssemble_stageData hkeyed hks (by omega) (macPayload_seal ho) (hout.trans hlen.symm))
  | tagCompute =>
    obtain ⟨hkeyed, htag⟩ := tagCompute_tagged hd hp (.tagWrite 0)
    exact .inr ⟨hkeyed, htag, Nat.zero_le _⟩
  | tagWrite i =>
    dsimp only
    split
    · next hi =>
      rw [State.StageData, hp] at hd
      obtain ⟨hkeyed, htag, -⟩ := hd
      exact busWrite_proceeds_mem _ _ fun _ => ⟨hkeyed, htag, hi⟩
    · exact .inl ⟨_, _, rfl⟩
  | idle | macCt _ | tagRead _ | tagCompare | tagVerdict | zeroFill _ =>
    rw [hp] at hf
    cases hf

/-- A step of OPEN keeps what its stages say of the hidden data (R163). -/
theorem execOpenCmd_stageData {s : State} (ho : s.hid.op = some .openCmd) (hf : s.hid.pos.fits .openCmd = true)
    (hd : s.StageData) : s.Proceeds State.StageData (execOpenCmd s) := by
  have hlen : s.payLen = s.clen := payLen_open ho
  unfold execOpenCmd
  cases hp : s.hid.pos with
  | check => exact flaw_open ho ▸ checkStage_stageData hd hp
  | keySched =>
    exact keySched_stageData hd hp fun hkeyed =>
      ⟨hkeyed, ksDone_open ho rfl rfl, rfl, Nat.zero_le _, rfl⟩
  | macAd i =>
    dsimp only
    split
    · next hi => exact macReadAd_stageData hd hp hi
    · next hi =>
      rw [State.StageData, hp] at hd
      obtain ⟨hkeyed, hks, had, hle, hct⟩ := hd
      exact .inr ⟨hkeyed, hks, had.trans (Nat.le_antisymm hle (Nat.not_lt.mp hi)), by simp [hct], Nat.zero_le _⟩
  | macCt i =>
    rw [State.StageData, hp] at hd
    obtain ⟨hkeyed, hks, had, hct, hle⟩ := hd
    dsimp only
    split
    · next hi => exact busRead_proceeds _ fun _ => ⟨hkeyed, hks, had, by simp [hct], hlen ▸ hi⟩
    · next hi => exact .inr (macAssemble_stageData hkeyed hks had (macPayload_open ho) (by omega))
  | tagCompute =>
    obtain ⟨hkeyed, htag⟩ := tagCompute_tagged hd hp (.tagRead 0)
    exact .inr ⟨hkeyed, htag, Nat.zero_le _⟩
  | tagRead i =>
    rw [State.StageData, hp] at hd
    obtain ⟨hkeyed, htag, -⟩ := hd
    dsimp only
    split
    · next hi => exact busRead_proceeds _ fun _ => ⟨hkeyed, htag, hi⟩
    · exact .inr ⟨hkeyed, htag⟩
  | tagCompare =>
    rw [State.StageData, hp] at hd
    obtain ⟨hkeyed, htag⟩ := hd
    exact .inr ⟨hkeyed, htag, rfl⟩
  | tagVerdict => exact tagVerdict_stageData ho hd hp
  | xformRead i =>
    dsimp only
    split
    · next hi => exact xformRead_stageData hd hp (hlen ▸ hi)
    · exact .inl ⟨_, _, rfl⟩
  | xformWrite i y => exact xformWrite_stageData hd hp
  | zeroFill i =>
    rw [State.StageData, hp] at hd
    obtain ⟨hkeyed, hdiff, -⟩ := hd
    dsimp only
    split
    · next hi => exact busWrite_proceeds_mem _ _ fun _ => ⟨hkeyed, hdiff, hlen ▸ hi⟩
    · exact .inl ⟨_, _, rfl⟩
  | idle | tagWrite _ =>
    rw [hp] at hf
    cases hf

/-- The rule of a reserved command has no position but CHECK (R164). -/
theorem fits_badCmd {w : Word} {p : Pos} (hf : p.fits (.badCmd w) = true) : p = .check := by
  cases p with
  | check => rfl
  | idle | keySched | xformRead _ | xformWrite _ _ | macAd _ | macCt _ | tagCompute | tagWrite _ | tagRead _
  | tagCompare | tagVerdict | zeroFill _ => cases hf

theorem execBadCmd_stageData {s : State} {w : Word} (hf : s.hid.pos.fits (.badCmd w) = true) :
    s.Proceeds State.StageData (execBadCmd w s) := by
  rw [execBadCmd, fits_badCmd hf]
  exact .inl ⟨_, _, rfl⟩

theorem exec_keeps_stageData {s t : State} {i : Instr} (hs : s.Inv) (hd : s.StageData) (ho : s.hid.op = some i)
    (h : exec i s = .next t) : t.StageData := by
  obtain ⟨_, _, _, _, hfits⟩ := inv_running hs ho
  have hproceeds : s.Proceeds State.StageData (exec i s) := by
    cases i with
    | sealCmd => exact execSealCmd_stageData ho hfits hd
    | openCmd => exact execOpenCmd_stageData ho hfits hd
    | badCmd w => exact execBadCmd_stageData hfits
  rw [h] at hproceeds
  rcases hproceeds with ⟨r, n, rfl⟩ | ht
  · exact stageData_of_idle rfl
  · exact ht

/-! ## What every step keeps of the hidden data -/

theorem stageData_congr {s u : State} (hr : u.regs = s.regs) (hh : u.hid = s.hid) (hplat : u.plat = s.plat)
    (hd : s.StageData) : u.StageData := by
  cases s
  cases u
  cases hr
  cases hh
  cases hplat
  exact hd

/-- A register write changes an operand or accepts a command only on an idle engine, which holds nothing (R38, R46). -/
theorem regWrite_keeps_stageData {s : State} (r : RegName) (v : Word) (hq : s.Quiet) (hd : s.StageData) :
    (s.regWrite r v).StageData := by
  rcases regWrite_cases s r v with e | e | e | ⟨_, hb, _, e⟩ | e | e | ⟨_, hb, _, _, _, _, _, _, _, e⟩ <;> rw [e]
  · exact hd
  · exact hd
  · exact stageData_of_idle rfl
  · show (s.accept (decode v)).hid = _
    rw [accept_hid, hq hb]
    rfl
  · exact hd
  · exact hd
  · exact stageData_of_idle (congrArg Hidden.pos (hq hb))

/-- Settles O41: commands, register writes and the reset input each keep the stage data, under the control
invariant. -/
theorem stepKeepsTheStageData : Obligations.StepKeepsTheStageData := by
  intro s t hs hd h
  obtain ⟨u, hu, hstep⟩ := step_next_cases h
  obtain ⟨hus, hud, hop⟩ : u.Inv ∧ u.StageData ∧ u.hid.op = s.hid.op := by
    rcases hu with rfl | ⟨_, _, _, rfl⟩
    · exact ⟨hs, hd, rfl⟩
    · exact ⟨inv_congr (s := s) rfl rfl rfl hs, stageData_congr (s := s) rfl rfl rfl hd, rfl⟩
  rcases hstep with ⟨i, ho, he⟩ | ⟨hengine, _, hplat, _⟩ | rfl | rfl
  · exact exec_keeps_stageData hus hud (hop.trans ho) he
  · rcases hengine with ⟨hr, hh⟩ | ⟨_, r, v, hr, hh⟩
    · exact stageData_congr hr hh hplat hud
    · exact stageData_congr hr hh (hplat.trans (regWrite_frame u r v).2.1.symm)
        (regWrite_keeps_stageData r v hus.1 hud)
  · exact stageData_of_idle rfl
  · exact hud

end Sys2Proof.Machine

namespace Sys2Proof.Machine

/-! ## The payload transform -/

/-- An allowed read of input byte `i` yields it XORed with the keystream byte at KSPOS (R120). -/
theorem xformRead_ok {s : State} {i : Nat} (hok : memOk s.plat .read (s.ina + i) = true)
    (hdev : isDevice s.plat (s.ina + i) = false) :
    s.xformRead i = .next (s.goto (.xformWrite i
      (s.mem.read (s.ina + i) ^^^ ksByte s.plat s.keyBytes s.nonceBytes s.hid.kspos))) :=
  busRead_ok _ hok hdev

/-- An allowed write of `y` to window byte `i` is followed by the advance of OUTBYTES and KSPOS (R120). -/
theorem xformWrite_ok {s : State} {i : Nat} {y : Byte} (hok : memOk s.plat .write (s.outa + i) = true)
    (hdev : isDevice s.plat (s.outa + i) = false) :
    s.xformWrite i y = .next (({ s with mem := s.mem.write (s.outa + i) y } : State).xformAdvance i y) :=
  busWrite_ok _ _ hok hdev

/-- Settles O21: with the bus access allowed, byte `j` is read or written; past the payload SEAL goes on. -/
theorem transformSteps : Obligations.TransformSteps := by
  intro s j
  refine ⟨fun hp hok hdev => ?_, fun y hp hok hdev => ?_, fun hp hend => ?_⟩
  · have hread := xformRead_ok hok hdev
    refine ⟨fun hj => ?_, fun hj => ?_⟩
    · simp only [exec, execSealCmd, hp, if_pos hj]
      exact hread
    · simp only [exec, execOpenCmd, hp, if_pos hj]
      exact hread
  · have hwrite := xformWrite_ok (y := y) hok hdev
    constructor
    · simp only [exec, execSealCmd, hp]
      exact hwrite
    · simp only [exec, execOpenCmd, hp]
      exact hwrite
  · simp only [exec, execSealCmd, hp, if_neg (Nat.not_lt.mpr hend)]
    rfl

/-- An OR of words is zero exactly when each of them is. -/
theorem foldl_or_eq_zero_iff {α : Type} {n : Nat} (f : α → BitVec n) (l : List α) (d : BitVec n) :
    l.foldl (fun d a => d ||| f a) d = 0 ↔ d = 0 ∧ ∀ a ∈ l, f a = 0 := by
  induction l generalizing d with
  | nil => simp
  | cons a l ih =>
    have hor : d ||| f a = 0 ↔ d = 0 ∧ f a = 0 := BitVec.or_eq_zero_iff
    rw [List.foldl_cons, ih, hor, List.forall_mem_cons, and_assoc]

/-- DIFF is zero exactly when the two tags agree in all 16 bytes (R143, R148). -/
theorem tagDiff_eq_zero_iff {expected claimed : Tag} : tagDiff expected claimed = 0 ↔ expected = claimed := by
  rw [tagDiff, foldl_or_eq_zero_iff]
  constructor
  · rintro ⟨-, hbytes⟩
    ext i hi : 1
    exact BitVec.xor_eq_zero_iff.mp (hbytes ⟨i, hi⟩ (List.mem_finRange _))
  · rintro rfl
    exact ⟨rfl, fun i _ => BitVec.xor_self⟩

/-- A tag found valid is the MAC tag of the AD and the ciphertext that were read (R143, R144). -/
theorem verified_ctag {s : State} (hv : s.Verified) :
    s.hid.ctag = macTag s.plat s.hid.otk (macInput s.hid.adBytes s.hid.ctBytes) := by
  obtain ⟨hvalid, hdiff, htag, hmac⟩ := hv
  have heq : s.hid.etag = s.hid.ctag := tagDiff_eq_zero_iff.mp (hdiff.symm.trans hvalid)
  rw [← heq, htag, hmac]

/-- Settles O46: OPEN's transform stands only where the tag was found valid, under the derived OTK. -/
theorem noUnverifiedPlaintext : Obligations.NoUnverifiedPlaintext := by
  intro s j y _ hd ho hp
  rw [State.StageData, hp] at hd
  obtain ⟨⟨-, -, hotk⟩, hallowed, -⟩ := hd
  exact ⟨verified_ctag (hallowed ho), hotk⟩

end Sys2Proof.Machine

namespace Sys2Proof.Machine

/-! ## The MAC input -/

/-- An allowed read of AD byte `i` appends it to the AD bytes (R130). -/
theorem macReadAd_ok {s : State} {i : Nat} (hok : memOk s.plat .read (s.ada + i) = true)
    (hdev : isDevice s.plat (s.ada + i) = false) :
    s.macReadAd i = .next { s with hid := { s.hid with
      adBytes := s.hid.adBytes ++ [s.mem.read (s.ada + i)], pos := .macAd (i + 1) } } :=
  busRead_ok _ hok hdev

/-- An allowed read of ciphertext byte `i` appends it to the ciphertext bytes (R130). -/
theorem macReadCt_ok {s : State} {i : Nat} (hok : memOk s.plat .read (s.ina + i) = true)
    (hdev : isDevice s.plat (s.ina + i) = false) :
    s.macReadCt i = .next { s with hid := { s.hid with
      ctBytes := s.hid.ctBytes ++ [s.mem.read (s.ina + i)], pos := .macCt (i + 1) } } :=
  busRead_ok _ hok hdev

/-- Settles O22: byte `j` is read while its region lasts; past it the command goes on or assembles MACBUF. -/
theorem macBuildSteps : Obligations.MacBuildSteps := by
  intro s j
  refine ⟨fun hp hj hok hdev => ?_, fun hp hend => ?_, fun hp hj hok hdev => ?_, fun hp hend => ?_⟩
  · simp only [exec, execSealCmd, execOpenCmd, hp, if_pos hj, macReadAd_ok hok hdev, and_self]
  · simp only [exec, execSealCmd, execOpenCmd, hp, if_neg (Nat.not_lt.mpr hend)]
    exact ⟨rfl, rfl⟩
  · simp only [exec, execOpenCmd, hp, if_pos hj, macReadCt_ok hok hdev]
  · simp only [exec, execOpenCmd, hp, if_neg (Nat.not_lt.mpr hend)]
    rfl

theorem le_roundUp16 (n : Nat) : n ≤ roundUp16 n := by
  unfold roundUp16
  omega

theorem roundUp16_mod (n : Nat) : roundUp16 n % 16 = 0 := Nat.mul_mod_right 16 _

@[simp] theorem pad16_length (bs : List Byte) : (pad16 bs).length = roundUp16 bs.length := by
  simp [pad16, Nat.add_sub_cancel' (le_roundUp16 bs.length)]

theorem take_pad16_append (bs rest : List Byte) : (pad16 bs ++ rest).take bs.length = bs := by
  rw [pad16, List.append_assoc, List.take_left]

theorem pad16_getElem?_padding {bs : List Byte} {j : Nat} (h : bs.length ≤ j) (hj : j < roundUp16 bs.length) :
    (pad16 bs)[j]? = some 0 := by
  rw [pad16, List.getElem?_append_right h, List.getElem?_replicate_of_lt (by omega)]

@[simp] theorem leBytes_length (k n : Nat) : (leBytes k n).length = k := by simp [leBytes]

@[simp] theorem le64_length (n : Nat) : (le64 n).length = 8 := leBytes_length 8 n

theorem leBytes_succ (k n : Nat) : leBytes (k + 1) n = BitVec.ofNat 8 n :: leBytes k (n / 256) := by
  have hshift (i : Nat) : n >>> (8 * (i + 1)) = (n / 256) >>> (8 * i) := by
    rw [Nat.mul_succ, Nat.add_comm, Nat.shiftRight_add, Nat.shiftRight_eq_div_pow n 8]
  simp [leBytes, List.range_succ_eq_map, hshift]

/-- Reading back the low `k` bytes of `n` gives `n` modulo 256^k. -/
theorem leInt_leBytes (k n : Nat) : leInt (leBytes k n) = n % 256 ^ k := by
  induction k generalizing n with
  | zero => simp [leBytes, leInt, Nat.mod_one]
  | succ k ih => rw [leBytes_succ, leInt, ih, BitVec.toNat_ofNat, Nat.pow_succ' (n := k), Nat.mod_mul]

theorem leInt_le64 {n : Nat} (h : n < 2 ^ 64) : leInt (le64 n) = n :=
  (leInt_leBytes 8 n).trans (Nat.mod_eq_of_lt h)

/-- The MAC input is the AD section followed by the rest. -/
theorem macInput_eq (a c : List Byte) :
    macInput a c = pad16 a ++ (pad16 c ++ (le64 a.length ++ le64 c.length)) := by
  simp only [macInput, List.append_assoc]

/-- The MAC input past the AD section: the payload section and the two length fields. -/
theorem drop_ad_macInput (a c : List Byte) :
    (macInput a c).drop (roundUp16 a.length) = pad16 c ++ (le64 a.length ++ le64 c.length) := by
  rw [macInput_eq, List.drop_left' (pad16_length a)]

/-- The MAC input past both sections: the two length fields. -/
theorem drop_payload_macInput (a c : List Byte) :
    (macInput a c).drop (roundUp16 a.length + roundUp16 c.length) = le64 a.length ++ le64 c.length := by
  rw [← List.drop_drop, drop_ad_macInput, List.drop_left' (pad16_length c)]

@[simp] theorem macInput_length (a c : List Byte) :
    (macInput a c).length = roundUp16 a.length + roundUp16 c.length + 16 := by
  simp [macInput, Nat.add_assoc]

/-- The AD stands at the start of the MAC input (R131). -/
theorem macInput_ad (a c : List Byte) : (macInput a c).take a.length = a := by
  rw [macInput_eq, take_pad16_append]

/-- The payload stands after the AD section (R131). -/
theorem macInput_payload (a c : List Byte) : ((macInput a c).drop (roundUp16 a.length)).take c.length = c := by
  rw [drop_ad_macInput, take_pad16_append]

/-- The first length field is the AD's (R133). -/
theorem macInput_adLen (a c : List Byte) :
    ((macInput a c).drop (roundUp16 a.length + roundUp16 c.length)).take 8 = le64 a.length := by
  rw [drop_payload_macInput, List.take_left' (le64_length _)]

/-- The second length field is the payload's, and it ends the MAC input (R133). -/
theorem macInput_payloadLen (a c : List Byte) :
    (macInput a c).drop (roundUp16 a.length + roundUp16 c.length + 8) = le64 c.length := by
  rw [← List.drop_drop, drop_payload_macInput, List.drop_left' (le64_length _)]

/-- The AD section is filled up with zeros (R131, R132). -/
theorem macInput_adPadding {a : List Byte} {j : Nat} (c : List Byte) (h : a.length ≤ j)
    (hj : j < roundUp16 a.length) : (macInput a c)[j]? = some 0 := by
  rw [macInput_eq, List.getElem?_append_left (by rwa [pad16_length]), pad16_getElem?_padding h hj]

/-- The payload section is filled up with zeros (R131, R132). -/
theorem macInput_payloadPadding {c : List Byte} {j : Nat} (a : List Byte) (h : roundUp16 a.length + c.length ≤ j)
    (hj : j < roundUp16 a.length + roundUp16 c.length) : (macInput a c)[j]? = some 0 := by
  obtain ⟨k, rfl⟩ := Nat.exists_eq_add_of_le (Nat.le_of_add_right_le h)
  have hk : k < roundUp16 c.length := Nat.lt_of_add_lt_add_left hj
  rw [← List.getElem?_drop, drop_ad_macInput, List.getElem?_append_left (by rwa [pad16_length]),
    pad16_getElem?_padding (Nat.le_of_add_le_add_left h) hk]

/-- Settles O54: each row of the layout is read off the MAC input with the sections before it dropped. -/
theorem macInputLayout : Obligations.MacInputLayout := by
  intro A C m a c
  have hlen : m.length = a + c + 16 := macInput_length A C
  have ha : a % 16 = 0 := roundUp16_mod A.length
  have hc : c % 16 = 0 := roundUp16_mod C.length
  exact ⟨hlen, by omega, by omega, macInput_ad A C, fun _ => macInput_adPadding C, macInput_payload A C,
    fun _ => macInput_payloadPadding A, macInput_adLen A C, macInput_payloadLen A C, leInt_le64⟩

end Sys2Proof.Machine

namespace Sys2Proof.Machine

/-! ## The tag stage -/

/-- Settles O25: DIFF is an OR of the 16 byte differences, so it is zero exactly when the tags agree. -/
theorem tagDiffIsZeroIffEqual : Obligations.TagDiffIsZeroIffEqual :=
  fun _ _ _ _ _ => ⟨tagDiff_eq_zero_iff, tagDiff_eq_zero_iff⟩

/-- An allowed write of tag byte `i` stores it after the payload and changes nothing else (R141). -/
theorem tagWrite_ok {s : State} {i : Fin 16} (hok : memOk s.plat .write (s.outa + s.plen + i.val) = true)
    (hdev : isDevice s.plat (s.outa + s.plen + i.val) = false) :
    s.tagWrite i = .next { s with
      mem := s.mem.write (s.outa + s.plen + i.val) s.hid.etag[i]
      hid := { s.hid with pos := .tagWrite (i.val + 1) } } :=
  busWrite_ok _ _ hok hdev

/-- An allowed read of claimed-tag byte `i` stores it in CTAG (R142). -/
theorem tagRead_ok {s : State} {i : Fin 16} (hok : memOk s.plat .read (s.ina + s.clen + i.val) = true)
    (hdev : isDevice s.plat (s.ina + s.clen + i.val) = false) :
    s.tagRead i = .next { s with hid := { s.hid with
      ctag := s.hid.ctag.set i (s.mem.read (s.ina + s.clen + i.val)), pos := .tagRead (i.val + 1) } } :=
  busRead_ok _ hok hdev

/-- An allowed write of ZEROFILL clears byte `i` of the window and changes nothing else (R145). -/
theorem zeroWrite_ok {s : State} {i : Nat} (hok : memOk s.plat .write (s.outa + i) = true)
    (hdev : isDevice s.plat (s.outa + i) = false) :
    s.zeroWrite i = .next { s with
      mem := s.mem.write (s.outa + i) 0, hid := { s.hid with pos := .zeroFill (i + 1) } } :=
  busWrite_ok _ _ hok hdev

/-- The verdict changes only the position: the transform for a valid tag, else ZEROFILL (R144). -/
theorem tagVerdict_eq (s : State) :
    s.tagVerdict = s.goto (if s.hid.diff = 0 then .xformRead 0 else .zeroFill 0) := by
  rcases tagVerdict_cases s with ⟨hdiff, hgoto⟩ | ⟨hdiff, hgoto⟩
  · rw [hgoto, if_pos hdiff]
  · rw [hgoto, if_neg hdiff]

/-- A completion with AUTH_FAIL reports no output and leaves FATAL as it was (R145, R210). -/
theorem complete_authFail (s : State) :
    s.complete .authFail 0 = { s with
      hid := Hidden.zero
      regs := { s.regs with busy := false, done := true, result := .authFail, outLen := 0 } } := by
  simp [State.complete]

/-- Settles O23: SEAL's tag is computed in one step, and its byte `j` is stored by an allowed write. -/
theorem tagComputeAndAppend : Obligations.TagComputeAndAppend := by
  intro s
  refine ⟨fun hp => ?_, fun j hp hok hdev => ?_⟩
  · simp only [exec, execSealCmd, hp]
    rfl
  · simp only [exec, execSealCmd, hp, dif_pos j.isLt]
    exact tagWrite_ok hok hdev

/-- Settles O24: OPEN's tag steps one position at a time, the reads of the claimed tag being allowed. -/
theorem tagVerifySteps : Obligations.TagVerifySteps := by
  intro s
  refine ⟨fun hp => ?compute, fun j hp hok hdev => ?extract, fun hp => ?extracted, fun hp => ?compare,
    fun hp => ?verdict⟩
  all_goals simp only [exec, execOpenCmd, hp]
  case compute => rfl
  case extract =>
    rw [dif_pos j.isLt]
    exact tagRead_ok hok hdev
  case extracted => rfl
  case compare => rfl
  case verdict =>
    rw [tagVerdict_eq]
    rfl

/-- Settles O26: a byte of the window is cleared while it lasts; past it the command ends with AUTH_FAIL. -/
theorem zeroFillSteps : Obligations.ZeroFillSteps := by
  intro s j hp
  refine ⟨fun hj hok hdev => ?_, fun hend => ?_⟩
  · simp only [exec, execOpenCmd, hp, if_pos hj]
    exact zeroWrite_ok hok hdev
  · simp only [exec, execOpenCmd, hp, if_neg (Nat.not_lt.mpr hend), raise_eq, complete_authFail]

end Sys2Proof.Machine

namespace Sys2Proof.Machine

/-! ## The buffer check -/

/-- The end-address test of R151 says that the regions start apart and share a byte: the later start is one. -/
theorem inexact_iff {a n b m : Nat} :
    inexact a n b m = true ↔ a ≠ b ∧ ∃ x, (a ≤ x ∧ x < a + n) ∧ (b ≤ x ∧ x < b + m) := by
  simp only [inexact, Bool.and_eq_true, decide_eq_true_eq]
  constructor
  · rintro ⟨⟨⟨⟨hn, hm⟩, hab⟩, ha⟩, hb⟩
    exact ⟨hab, max a b, by omega, by omega⟩
  · rintro ⟨hab, x, hxa, hxb⟩
    omega

/-- The range check of R152 rejects three regions exactly when one of them ends past 2^32. -/
theorem not_inRange_all_iff {a n b m c k : Nat} :
    (!(inRange a n && inRange b m && inRange c k)) = true ↔
      a + n > 2 ^ 32 ∨ b + m > 2 ^ 32 ∨ c + k > 2 ^ 32 := by
  simp only [Bool.not_eq_true', Bool.and_eq_false_iff, inRange, decide_eq_false_iff_not, Nat.not_le, or_assoc]

/-- The length limit and the ranges of a SEAL are one test with one result (R152, R153). -/
theorem sealFlaw_eq (s : State) :
    s.sealFlaw =
      if s.plen > 2 ^ 32 - 17 ∨ s.ada + s.adl > 2 ^ 32 ∨ s.ina + s.plen > 2 ^ 32 ∨
          s.outa + (s.plen + 16) > 2 ^ 32 then some .range
      else if inexact s.outa (s.plen + 16) s.ina s.plen then some .overlap
      else none := by
  simp only [State.sealFlaw, not_inRange_all_iff, ite_or]

theorem openFlaw_eq (s : State) :
    s.openFlaw =
      if s.inl < 16 then some .authFail
      else if s.ada + s.adl > 2 ^ 32 ∨ s.ina + s.inl > 2 ^ 32 ∨ s.outa + s.clen > 2 ^ 32 then some .range
      else if inexact s.outa s.clen s.ina s.clen then some .overlap
      else none := by
  simp only [State.openFlaw, not_inRange_all_iff]

/-- With FATAL clear, as it is while a command runs, any result ends the command as `ended` says (R210). -/
theorem complete_eq_ended {s : State} (hf : s.regs.fatal = false) (r : Result) :
    s.complete r 0 = s.ended s.mem r 0 := by
  simp [State.complete, State.ended, hf]

theorem exec_sealCmd_check {s : State} {flaw : Option Result} (hp : s.hid.pos = .check) (h : s.sealFlaw = flaw) :
    exec .sealCmd s = .next (s.checkStage flaw) := by
  simp only [exec, execSealCmd, hp, h]

theorem exec_openCmd_check {s : State} {flaw : Option Result} (hp : s.hid.pos = .check) (h : s.openFlaw = flaw) :
    exec .openCmd s = .next (s.checkStage flaw) := by
  simp only [exec, execOpenCmd, hp, h]

theorem checkStage_some (s : State) (r : Result) : s.checkStage (some r) = s.complete r 0 := rfl

theorem checkStage_none (s : State) : s.checkStage none = s.goto .keySched := rfl

/-- Settles O18: the flaw CHECK finds in a SEAL, case by case of its tests, and where it leads. -/
theorem sealCheckOutcome : Obligations.SealCheckOutcome := by
  intro s hp bad overlap
  refine ⟨fun hbad => ?range, fun hok hlap => ?overlap, fun hok hapart => ?pass⟩
  case range =>
    have hflaw : s.sealFlaw = some .range := by rw [sealFlaw_eq, if_pos hbad]
    rw [exec_sealCmd_check hp hflaw, checkStage_some, complete_fatal isFatal_range]
  case overlap =>
    have hflaw : s.sealFlaw = some .overlap := by rw [sealFlaw_eq, if_neg hok, if_pos (inexact_iff.mpr hlap)]
    rw [exec_sealCmd_check hp hflaw, checkStage_some, complete_fatal isFatal_overlap]
  case pass =>
    have hflaw : s.sealFlaw = none := by rw [sealFlaw_eq, if_neg hok, if_neg (mt inexact_iff.mp hapart)]
    rw [exec_sealCmd_check hp hflaw, checkStage_none, State.goto]

/-- Settles O19: the flaw CHECK finds in an OPEN, case by case of its tests, and where it leads. Only the short
input is not fatal, so only there is FATAL's own value needed. -/
theorem openCheckOutcome : Obligations.OpenCheckOutcome := by
  intro s hp hfatal bad overlap
  refine ⟨fun hshort => ?short, fun hlong hbad => ?range, fun hlong hok hlap => ?overlap,
    fun hlong hok hapart => ?pass⟩
  case short =>
    have hflaw : s.openFlaw = some .authFail := by rw [openFlaw_eq, if_pos hshort]
    rw [exec_openCmd_check hp hflaw, checkStage_some, complete_eq_ended hfatal]
  all_goals have htests := (openFlaw_eq s).trans (if_neg (Nat.not_lt.mpr hlong))
  case range =>
    have hflaw : s.openFlaw = some .range := by rw [htests, if_pos hbad]
    rw [exec_openCmd_check hp hflaw, checkStage_some, complete_fatal isFatal_range]
  case overlap =>
    have hflaw : s.openFlaw = some .overlap := by rw [htests, if_neg hok, if_pos (inexact_iff.mpr hlap)]
    rw [exec_openCmd_check hp hflaw, checkStage_some, complete_fatal isFatal_overlap]
  case pass =>
    have hflaw : s.openFlaw = none := by rw [htests, if_neg hok, if_neg (mt inexact_iff.mp hapart)]
    rw [exec_openCmd_check hp hflaw, checkStage_none, State.goto]

end Sys2Proof.Machine

namespace Sys2Proof.Machine

/-! ## Acceptance and completion -/

theorem exec_idle {s : State} (hp : s.hid.pos = .idle) (i : Instr) : exec i s = .next (s.issue i) := by
  cases i <;> simp only [exec, execSealCmd, execOpenCmd, execBadCmd, hp]

/-- Settles O6: an idle engine issues the command, which the fatal lock refuses and which is accepted without it. -/
theorem idleEngineAcceptsOrIgnores : Obligations.IdleEngineAcceptsOrIgnores := by
  intro s i hp
  rw [exec_idle hp]
  refine ⟨fun hf => ?_, fun hf => ?_⟩ <;> simp [State.issue, State.accept, State.ignore, hf]

/-- Settles O5: the host's CMD write issues the decoded command, as does the first step of that command at IDLE, where
an engine that is not busy stands (R46). -/
theorem cmdWriteRunsTheDecodedWord : Obligations.CmdWriteRunsTheDecodedWord := by
  rintro s w rest ⟨hq, _⟩ hb hr ht hs
  have hidle : s.hid.pos = .idle := by rw [hq hb]; rfl
  rw [step_wr32 (r := .cmd) ht hb hs, exec_idle (s := { s with script := rest }) hidle]
  simp [State.regWrite, State.regWriteLive, State.cmdWrite, hr, hb]

/-- Settles O35: past acceptance a step of a command completes it or changes memory and hidden state only. -/
theorem statusChangesOnlyAtTheEnds : Obligations.StatusChangesOnlyAtTheEnds := by
  intro s t i hp h
  rcases exec_outcomes h with ⟨hidle, _⟩ | ⟨r, n, rfl⟩ | ⟨m, d, rfl, hop⟩
  · exact absurd hidle hp
  · exact .inr ⟨r, n, rfl, rfl, rfl, rfl, rfl⟩
  · exact .inl ⟨rfl, hop⟩

/-- STATUS after a completion, IGN and the earlier FATAL being clear (R26, R210). -/
theorem complete_statusWord {s : State} (hf : s.regs.fatal = false) (hi : s.regs.ign = false) (r : Result) (n : Nat) :
    (s.complete r n).regs.statusWord =
      Regs.statusWord { Regs.reset with result := r, fatal := r.isFatal, done := true } := by
  simp [Regs.statusWord, Regs.reset, hf, hi]

theorem exec_sealCmd_done {s : State} {j : Nat} (hp : s.hid.pos = .tagWrite j) (hj : 16 ≤ j) :
    exec .sealCmd s = .next (s.complete .ok (s.plen + 16)) := by
  simp only [exec, execSealCmd, hp, dif_neg (Nat.not_lt.mpr hj), finish_eq]

theorem exec_openCmd_done {s : State} {j : Nat} (hp : s.hid.pos = .xformRead j) (hj : s.clen ≤ j) :
    exec .openCmd s = .next (s.complete .ok s.clen) := by
  simp only [exec, execOpenCmd, hp, if_neg (Nat.not_lt.mpr hj), finish_eq]

theorem exec_badCmd_done {s : State} (hp : s.hid.pos = .check) (w : Word) :
    exec (.badCmd w) s = .next (s.complete .badCmd 0) := by
  simp only [exec, execBadCmd, hp, raise_eq]

/-- A completion with OK reports a length below 2^32 as it is, and leaves IRQ at IE (R35, R39, R210). -/
theorem complete_ok {s : State} (hf : s.regs.fatal = false) (hi : s.regs.ign = false) {n : Nat} (hn : n < 2 ^ 32) :
    (s.complete .ok n).regs.statusWord = 0x002 ∧ (s.complete .ok n).regs.outLen.toNat = n ∧
      (s.complete .ok n).hid = Hidden.zero ∧ (s.complete .ok n).mem = s.mem ∧
      (s.complete .ok n).irq = s.regs.ie :=
  ⟨(complete_statusWord hf hi .ok n).trans rfl, Nat.mod_eq_of_lt hn, rfl, rfl, Bool.and_true _⟩

theorem clen_lt (s : State) : s.clen < 2 ^ 32 := Nat.lt_of_le_of_lt (Nat.sub_le _ _) s.regs.inLen.isLt

/-- Settles O27: past the last tag byte SEAL completes with OK. -/
theorem sealCompletesOk : Obligations.SealCompletesOk := fun _ _ hp hj hlen hf hi =>
  ⟨_, exec_sealCmd_done hp hj, complete_ok hf hi (by omega)⟩

/-- Settles O28: past the last plaintext byte OPEN completes with OK. -/
theorem openCompletesOk : Obligations.OpenCompletesOk := fun s _ hp hj hf hi =>
  ⟨_, exec_openCmd_done hp hj, complete_ok hf hi (clen_lt s)⟩

/-- Settles O29: a reserved command at CHECK completes with BAD_CMD, which is not fatal. -/
theorem badCmdCompletes : Obligations.BadCmdCompletes := by
  intro s w hp
  refine ⟨?_, fun hf hi => ⟨_, exec_badCmd_done hp w, (complete_statusWord hf hi .badCmd 0).trans rfl⟩⟩
  rw [exec_badCmd_done hp]
  simp [State.complete]

end Sys2Proof.Machine

namespace Sys2Proof.Machine

/-! ## What a command has left to do -/

/-- How many of the steps left to a SEAL at a position make no memory access, the ends of its loops included (R162). -/
def Pos.sealSilentLeft : Pos → Nat
  | .check => 6
  | .keySched => 5
  | .xformRead _ => 4
  | .xformWrite _ _ => 4
  | .macAd _ => 3
  | .tagCompute => 2
  | .tagWrite _ => 1
  | _ => 0

/-- How many of the steps left to an OPEN at a position make no memory access, the ends of its loops included (R163). -/
def Pos.openSilentLeft : Pos → Nat
  | .check => 9
  | .keySched => 8
  | .macAd _ => 7
  | .macCt _ => 6
  | .tagCompute => 5
  | .tagRead _ => 4
  | .tagCompare => 3
  | .tagVerdict => 2
  | .xformRead _ => 1
  | .xformWrite _ _ => 1
  | .zeroFill _ => 1
  | _ => 0

/-- At most how many memory accesses are left to a SEAL at a position (R161). -/
def State.sealAccessesLeft (s : State) : Pos → Nat
  | .check => 2 * s.plen + s.adl + 16
  | .keySched => 2 * s.plen + s.adl + 16
  | .xformRead j => 2 * (s.plen - j) + s.adl + 16
  | .xformWrite j _ => 2 * (s.plen - (j + 1)) + 1 + s.adl + 16
  | .macAd j => (s.adl - j) + 16
  | .tagCompute => 16
  | .tagWrite j => 16 - j
  | _ => 0

/-- At most how many memory accesses are left to an OPEN at a position (R161). -/
def State.openAccessesLeft (s : State) : Pos → Nat
  | .check => s.adl + 3 * s.clen + 16
  | .keySched => s.adl + 3 * s.clen + 16
  | .macAd j => (s.adl - j) + 3 * s.clen + 16
  | .macCt j => (s.clen - j) + 2 * s.clen + 16
  | .tagCompute => 2 * s.clen + 16
  | .tagRead j => 2 * s.clen + (16 - j)
  | .tagCompare => 2 * s.clen
  | .tagVerdict => 2 * s.clen
  | .xformRead j => 2 * (s.clen - j)
  | .xformWrite j _ => 2 * (s.clen - (j + 1)) + 1
  | .zeroFill j => s.clen - j
  | _ => 0

/-- How many of the steps left to command `i` at position `p` make no memory access; a reserved command takes one. -/
def Pos.silentLeft (i : Instr) (p : Pos) : Nat :=
  match i with
  | .sealCmd => p.sealSilentLeft
  | .openCmd => p.openSilentLeft
  | .badCmd _ => 1

/-- At most how many memory accesses are left to command `i` at position `p`. -/
def State.accessesLeft (s : State) (i : Instr) (p : Pos) : Nat :=
  match i with
  | .sealCmd => s.sealAccessesLeft p
  | .openCmd => s.openAccessesLeft p
  | .badCmd _ => 0

/-- At most how many steps are left to command `i` at position `p`. -/
def State.stepsLeft (s : State) (i : Instr) (p : Pos) : Nat := s.accessesLeft i p + p.silentLeft i

/-- How many memory accesses the next step of command `i` tries to make: one or none (R71). -/
def State.accessCost (s : State) (i : Instr) : Nat := (s.nextAccess i).isSome.toNat

/-- The next step of command `i` may lead to position `q`: its access and the step itself are taken off what is
left. -/
def State.Spends (s : State) (i : Instr) (q : Pos) : Prop :=
  s.accessesLeft i q + s.accessCost i ≤ s.accessesLeft i s.hid.pos ∧
    s.stepsLeft i q < s.stepsLeft i s.hid.pos

/-- At a position of its rule a command has a step left. -/
theorem stepsLeft_pos {i : Instr} {p : Pos} (hf : p.fits i = true) (s : State) : 0 < s.stepsLeft i p := by
  refine Nat.add_pos_right _ ?_
  cases i with
  | sealCmd =>
    cases p with
    | check | keySched | xformRead _ | xformWrite _ _ | macAd _ | tagCompute | tagWrite _ => exact Nat.zero_lt_succ _
    | idle | macCt _ | tagRead _ | tagCompare | tagVerdict | zeroFill _ => cases hf
  | openCmd =>
    cases p with
    | check | keySched | macAd _ | macCt _ | tagCompute | tagRead _ | tagCompare | tagVerdict | xformRead _
    | xformWrite _ _ | zeroFill _ => exact Nat.zero_lt_succ _
    | idle | tagWrite _ => cases hf
  | badCmd w => exact Nat.one_pos

/-- The spec's bounds hold of what is left at CHECK (R161). -/
theorem accessesLeft_check (s : State) (i : Instr) : s.accessesLeft i .check ≤ 3 * s.inl + s.adl + 16 := by
  have hplen : s.plen = s.inl := rfl
  have hclen : s.clen = s.inl - 16 := rfl
  cases i <;> simp only [State.accessesLeft, State.sealAccessesLeft, State.openAccessesLeft] <;> omega

theorem stepsLeft_check (s : State) (i : Instr) : s.stepsLeft i .check ≤ 3 * s.inl + s.adl + 25 := by
  have hsilent : Pos.silentLeft i .check ≤ 9 := by cases i <;> exact Nat.le_of_ble_eq_true rfl
  have haccesses := accessesLeft_check s i
  unfold State.stepsLeft
  omega

/-- A step that tries an access has one left. -/
theorem accessCost_le (s : State) (i : Instr) : s.accessCost i ≤ s.accessesLeft i s.hid.pos := by
  unfold State.accessCost
  cases h : s.nextAccess i with
  | none => exact Nat.zero_le _
  | some a =>
    rw [Option.isSome_some, Bool.toNat_true]
    cases i with
    | sealCmd =>
      rcases sealAccess_cases h with ⟨j, hp, hj, _⟩ | ⟨j, y, hp, _⟩ | ⟨j, hp, hj, _⟩ | ⟨j, hp, hj, _⟩ <;>
        simp only [hp, State.accessesLeft, State.sealAccessesLeft] <;> omega
    | openCmd =>
      rcases openAccess_cases h with ⟨j, hp, hj, _⟩ | ⟨j, hp, hj, _⟩ | ⟨j, hp, hj, _⟩ | ⟨j, hp, hj, _⟩ |
        ⟨j, y, hp, _⟩ | ⟨j, hp, hj, _⟩ <;>
        simp only [hp, State.accessesLeft, State.openAccessesLeft] <;> omega
    | badCmd w => cases h

/-- A step that takes an access off what is left has paid for the access it tries. -/
theorem spends_access {s : State} {i : Instr} {p q : Pos} (hp : s.hid.pos = p)
    (ha : s.accessesLeft i q < s.accessesLeft i p) (hq : q.silentLeft i ≤ p.silentLeft i) : s.Spends i q := by
  subst hp
  have hcost : s.accessCost i ≤ 1 := Bool.toNat_le _
  unfold State.Spends State.stepsLeft
  omega

/-- A step without an access need only take itself off. -/
theorem spends_silent {s : State} {i : Instr} {p q : Pos} (hp : s.hid.pos = p) (hno : s.nextAccess i = none)
    (ha : s.accessesLeft i q ≤ s.accessesLeft i p) (hq : q.silentLeft i < p.silentLeft i) : s.Spends i q := by
  subst hp
  have hcost : s.accessCost i = 0 := by rw [State.accessCost, hno]; rfl
  unfold State.Spends State.stepsLeft
  omega

/-- A step of SEAL that goes on takes itself and its access off what is left (R162). -/
theorem execSealCmd_spends {s : State} (hf : s.hid.pos.fits .sealCmd = true) :
    s.Proceeds (fun t => s.Spends .sealCmd t.hid.pos) (execSealCmd s) := by
  have hno : s.nextAccess .sealCmd = s.sealAccess := rfl
  unfold State.sealAccess at hno
  unfold execSealCmd
  cases hp : s.hid.pos with
  | check =>
    exact checkStage_proceeds _ (spends_silent hp (by simp only [hno, hp]) (Nat.le_refl _) (Nat.lt_succ_self _))
  | keySched =>
    exact keySched_proceeds _ fun _ h =>
      h ▸ spends_silent hp (by simp only [hno, hp]) (Nat.le_refl _) (Nat.lt_succ_self _)
  | xformRead j =>
    dsimp only
    split
    · next hj =>
      exact busRead_proceeds _ fun _ => spends_access hp (by
        show 2 * (s.plen - (j + 1)) + 1 + s.adl + 16 < 2 * (s.plen - j) + s.adl + 16
        omega) (Nat.le_refl _)
    · next hj =>
      exact .inr (spends_silent hp (by simp only [hno, hp, if_neg hj]) (by
        show s.adl - 0 + 16 ≤ 2 * (s.plen - j) + s.adl + 16
        omega) (Nat.lt_succ_self _))
  | xformWrite j y =>
    exact busWrite_proceeds _ _ fun _ => spends_access hp (by
      show 2 * (s.plen - (j + 1)) + s.adl + 16 < 2 * (s.plen - (j + 1)) + 1 + s.adl + 16
      omega) (Nat.le_refl _)
  | macAd j =>
    dsimp only
    split
    · next hj =>
      exact busRead_proceeds _ fun _ => spends_access hp (by
        show s.adl - (j + 1) + 16 < s.adl - j + 16
        omega) (Nat.le_refl _)
    · next hj =>
      exact .inr (spends_silent hp (by simp only [hno, hp, if_neg hj]) (Nat.le_add_left _ _) (Nat.lt_succ_self _))
  | tagCompute =>
    exact .inr (spends_silent hp (by simp only [hno, hp]) (Nat.le_refl _) (Nat.lt_succ_self _))
  | tagWrite j =>
    dsimp only
    split
    · next hj =>
      exact busWrite_proceeds _ _ fun _ => spends_access hp (Nat.sub_lt_sub_left hj (Nat.lt_succ_self j))
        (Nat.le_refl _)
    · exact .inl ⟨_, _, rfl⟩
  | idle | macCt _ | tagRead _ | tagCompare | tagVerdict | zeroFill _ =>
    rw [hp] at hf
    cases hf

/-- A step of OPEN that goes on takes itself and its access off what is left (R163). -/
theorem execOpenCmd_spends {s : State} (hf : s.hid.pos.fits .openCmd = true) :
    s.Proceeds (fun t => s.Spends .openCmd t.hid.pos) (execOpenCmd s) := by
  have hno : s.nextAccess .openCmd = s.openAccess := rfl
  unfold State.openAccess at hno
  unfold execOpenCmd
  cases hp : s.hid.pos with
  | check =>
    exact checkStage_proceeds _ (spends_silent hp (by simp only [hno, hp]) (Nat.le_refl _) (Nat.lt_succ_self _))
  | keySched =>
    exact keySched_proceeds _ fun _ h =>
      h ▸ spends_silent hp (by simp only [hno, hp]) (Nat.le_refl _) (Nat.lt_succ_self _)
  | macAd j =>
    dsimp only
    split
    · next hj =>
      exact busRead_proceeds _ fun _ => spends_access hp (by
        show s.adl - (j + 1) + 3 * s.clen + 16 < s.adl - j + 3 * s.clen + 16
        omega) (Nat.le_refl _)
    · next hj =>
      exact .inr (spends_silent hp (by simp only [hno, hp, if_neg hj]) (by
        show s.clen - 0 + 2 * s.clen + 16 ≤ s.adl - j + 3 * s.clen + 16
        omega) (Nat.lt_succ_self _))
  | macCt j =>
    dsimp only
    split
    · next hj =>
      exact busRead_proceeds _ fun _ => spends_access hp (by
        show s.clen - (j + 1) + 2 * s.clen + 16 < s.clen - j + 2 * s.clen + 16
        omega) (Nat.le_refl _)
    · next hj =>
      exact .inr (spends_silent hp (by simp only [hno, hp, if_neg hj]) (by
        show 2 * s.clen + 16 ≤ s.clen - j + 2 * s.clen + 16
        omega) (Nat.lt_succ_self _))
  | tagCompute =>
    exact .inr (spends_silent hp (by simp only [hno, hp]) (Nat.le_refl _) (Nat.lt_succ_self _))
  | tagRead j =>
    dsimp only
    split
    · next hj =>
      exact busRead_proceeds _ fun _ => spends_access hp (by
        show 2 * s.clen + (16 - (j + 1)) < 2 * s.clen + (16 - j)
        omega) (Nat.le_refl _)
    · next hj =>
      exact .inr (spends_silent hp (by simp only [hno, hp, if_neg hj]) (Nat.le_add_right _ _) (Nat.lt_succ_self _))
  | tagCompare =>
    exact .inr (spends_silent hp (by simp only [hno, hp]) (Nat.le_refl _) (Nat.lt_succ_self _))
  | tagVerdict =>
    rcases tagVerdict_cases s with ⟨_, e⟩ | ⟨_, e⟩ <;> rw [e]
    · exact .inr (spends_silent hp (by simp only [hno, hp]) (Nat.le_refl _) (Nat.lt_succ_self _))
    · exact .inr (spends_silent hp (by simp only [hno, hp]) (by
        show s.clen - 0 ≤ 2 * s.clen
        omega) (Nat.lt_succ_self _))
  | xformRead j =>
    dsimp only
    split
    · next hj =>
      exact busRead_proceeds _ fun _ => spends_access hp (by
        show 2 * (s.clen - (j + 1)) + 1 < 2 * (s.clen - j)
        omega) (Nat.le_refl _)
    · exact .inl ⟨_, _, rfl⟩
  | xformWrite j y => exact busWrite_proceeds _ _ fun _ => spends_access hp (Nat.lt_succ_self _) (Nat.le_refl _)
  | zeroFill j =>
    dsimp only
    split
    · next hj =>
      exact busWrite_proceeds _ _ fun _ => spends_access hp (Nat.sub_lt_sub_left hj (Nat.lt_succ_self j))
        (Nat.le_refl _)
    · exact .inl ⟨_, _, rfl⟩
  | idle | tagWrite _ =>
    rw [hp] at hf
    cases hf

/-- A step of a command that goes on takes itself and its access off what is left. -/
theorem exec_spends {s t : State} {i : Instr} (hf : s.hid.pos.fits i = true) (h : exec i s = .next t) :
    (∃ r n, t = s.complete r n) ∨ s.Spends i t.hid.pos := by
  cases i with
  | sealCmd =>
    have hp := execSealCmd_spends hf
    rwa [show execSealCmd s = .next t from h] at hp
  | openCmd =>
    have hp := execOpenCmd_spends hf
    rwa [show execOpenCmd s = .next t from h] at hp
  | badCmd w =>
    rw [exec_badCmd_done (fits_badCmd hf)] at h
    cases h
    exact .inl ⟨_, _, rfl⟩

/-! ## The only refusal of a command -/

theorem busRead_refused {s : State} {x : Nat} {k : Byte → State} {r : Refusal} (h : s.busRead x k = .refused r) :
    r = .deviceBuffer := by
  unfold State.busRead at h
  split_ifs at h
  cases h
  rfl

theorem busWrite_refused {s : State} {x : Nat} {v : Byte} {k : State → State} {r : Refusal}
    (h : s.busWrite x v k = .refused r) : r = .deviceBuffer := by
  unfold State.busWrite at h
  split_ifs at h
  cases h
  rfl

theorem execSealCmd_refused {s : State} {r : Refusal} (h : execSealCmd s = .refused r) : r = .deviceBuffer := by
  unfold execSealCmd at h
  cases hp : s.hid.pos with
  | xformWrite j y =>
    rw [hp] at h
    exact busWrite_refused h
  | xformRead j | macAd j =>
    simp only [hp] at h
    split at h
    · exact busRead_refused h
    · cases h
  | tagWrite j =>
    simp only [hp] at h
    split at h
    · exact busWrite_refused h
    · cases h
  | _ =>
    rw [hp] at h
    cases h

theorem execOpenCmd_refused {s : State} {r : Refusal} (h : execOpenCmd s = .refused r) : r = .deviceBuffer := by
  unfold execOpenCmd at h
  cases hp : s.hid.pos with
  | xformWrite j y =>
    rw [hp] at h
    exact busWrite_refused h
  | xformRead j | macAd j | macCt j | tagRead j =>
    simp only [hp] at h
    split at h
    · exact busRead_refused h
    · cases h
  | zeroFill j =>
    simp only [hp] at h
    split at h
    · exact busWrite_refused h
    · cases h
  | _ =>
    rw [hp] at h
    cases h

/-- A command's step is refused only for a device region (R67, log 10). -/
theorem exec_refused {s : State} {i : Instr} {r : Refusal} (h : exec i s = .refused r) : r = .deviceBuffer := by
  cases i with
  | sealCmd => exact execSealCmd_refused h
  | openCmd => exact execOpenCmd_refused h
  | badCmd w =>
    simp only [exec, execBadCmd] at h
    split at h <;> cases h

end Sys2Proof.Machine

namespace Sys2Proof.Machine

/-! ## A running command between the moves of the other agents -/

/-- The move from `s` to `t` leaves the running command, its lengths and the schedule alone, and the host nothing new to
do. -/
structure State.Undisturbed (s t : State) : Prop where
  busy : t.regs.busy = s.regs.busy
  inLen : t.regs.inLen = s.regs.inLen
  adLen : t.regs.adLen = s.regs.adLen
  hid : t.hid = s.hid
  turns : t.turns = s.turns
  script : ∀ st ∈ t.script, st ∈ s.script

theorem undisturbed_refl (s : State) : s.Undisturbed s := ⟨rfl, rfl, rfl, rfl, rfl, fun _ => id⟩

/-- While busy a register write that is no soft reset leaves the command alone (R38). -/
theorem regWrite_undisturbed {s : State} {r : RegName} {v : Word} (hb : s.regs.busy = true)
    (hv : r = .ctrl → v[1] = false) : s.Undisturbed (s.regWrite r v) := by
  have ignored : s.Undisturbed s.ignore := ⟨rfl, rfl, rfl, rfl, rfl, fun _ => id⟩
  cases hr : s.resetIn with
  | true =>
    rw [regWrite_held hr]
    exact undisturbed_refl s
  | false =>
    rw [regWrite_live hr]
    cases r with
    | id | version | outLen | reserved => exact undisturbed_refl s
    | ctrl =>
      rw [State.regWriteLive, ctrlWrite_ie (hv rfl)]
      exact ⟨rfl, rfl, rfl, rfl, rfl, fun _ => id⟩
    | status => exact ⟨rfl, rfl, rfl, rfl, rfl, fun _ => id⟩
    | cmd =>
      rw [State.regWriteLive, State.cmdWrite, if_pos hb]
      exact ignored
    | inAddr | inLen | adAddr | adLen | outAddr | key _ | nonce _ =>
      rw [State.regWriteLive, guarded_busy hb]
      exact ignored

theorem portWrite_undisturbed {s : State} {off : BitVec 8} {width : Width} {v : Word} (hb : s.regs.busy = true)
    (hv : (HostStmt.wr off width v).softResets = false) : s.Undisturbed (s.portWrite off width v) := by
  cases hr : portReg off width with
  | none =>
    rw [portWrite_none hr]
    exact ⟨rfl, rfl, rfl, rfl, rfl, fun _ => id⟩
  | some r =>
    rw [portWrite_reg hr]
    refine regWrite_undisturbed hb ?_
    rintro rfl
    simpa [HostStmt.softResets, hr] using hv

theorem portRead_undisturbed (s : State) (off : BitVec 8) (width : Width) : s.Undisturbed (s.portRead off width) := by
  unfold State.portRead
  split <;> exact ⟨rfl, rfl, rfl, rfl, rfl, fun _ => id⟩

/-- The outcome of a move of the host: the command left alone, or a stop for a host access (logs 10, 14). -/
def State.HostMoves (s : State) : Out → Prop
  | .next t => s.Undisturbed t
  | .fault f => f = .hostRace ∨ f = .hostNoSuchAddress
  | .refused _ => False

theorem hostFault_cases {s : State} {a n : Nat} {f : Fault} (h : s.hostFault a n = some f) :
    f = .hostRace ∨ f = .hostNoSuchAddress := by
  unfold State.hostFault at h
  split_ifs at h <;> cases h
  · exact .inr rfl
  · exact .inl rfl

theorem hostMemWrite_moves (s : State) (a : Nat) (bs : List Byte) : s.HostMoves (s.hostMemWrite a bs) := by
  cases hf : s.hostFault a bs.length with
  | some f => exact hostMemWrite_fault hf ▸ hostFault_cases hf
  | none =>
    obtain ⟨hregs, hhid, _, _, hturns, hscript, _⟩ := hostWriteSeq_frame s a bs
    rw [hostMemWrite_next hf]
    exact ⟨congrArg Regs.busy hregs, congrArg Regs.inLen hregs, congrArg Regs.adLen hregs, hhid, hturns,
      fun _ h => hscript ▸ h⟩

theorem hostMemRead_moves (s : State) (a n : Nat) : s.HostMoves (s.hostMemRead a n) := by
  cases hf : s.hostFault a n with
  | some f => exact hostMemRead_fault hf ▸ hostFault_cases hf
  | none =>
    obtain ⟨hregs, hhid, _, _, _, hturns, hscript, _⟩ := hostReadSeq_frame s a n
    rw [hostMemRead_next hf]
    exact ⟨congrArg Regs.busy hregs, congrArg Regs.inLen hregs, congrArg Regs.adLen hregs, hhid, hturns,
      fun _ h => hscript ▸ h⟩

theorem hostStmt_moves {s : State} {st : HostStmt} (hb : s.regs.busy = true) (hst : st.softResets = false)
    {script : List HostStmt} (hs : s.script ⊆ script) :
    State.HostMoves { s with script := script } (s.hostStmt { s with script := script } st) := by
  have widen {o : Out} (h : s.HostMoves o) : State.HostMoves { s with script := script } o := by
    cases o with
    | next t =>
      obtain ⟨hbusy, hin, had, hhid, hturns, hscript⟩ := h
      exact ⟨hbusy, hin, had, hhid, hturns, fun st hst => hs (hscript st hst)⟩
    | fault _ | refused _ => exact h
  cases st with
  | wr off width v => exact widen (portWrite_undisturbed hb hst)
  | rd off width => exact widen (portRead_undisturbed s off width)
  | poll off mask v =>
    dsimp only [State.hostStmt]
    split_ifs
    · exact widen (portRead_undisturbed s off .b32)
    · exact undisturbed_refl _
    · exact ⟨rfl, rfl, rfl, rfl, rfl, fun _ => id⟩
  | memWrite a bs => exact widen (hostMemWrite_moves s a bs)
  | memRead a n => exact widen (hostMemRead_moves s a n)
  | invalidate a n => exact widen ⟨rfl, rfl, rfl, rfl, rfl, fun _ => id⟩

/-- A step of a host that writes no soft reset leaves a running command alone, or stops. -/
theorem hostStep_moves {s : State} (hb : s.regs.busy = true) (hs : ∀ st ∈ s.script, st.softResets = false) :
    s.HostMoves s.hostStep := by
  cases h : s.script with
  | nil =>
    rw [State.hostStep, h]
    exact undisturbed_refl s
  | cons st rest =>
    rw [hostStep_cons h]
    have hmoves := hostStmt_moves (s := { s with script := rest }) hb (hs st (h ▸ List.mem_cons_self ..))
      (List.subset_cons_self st rest)
    rwa [← h] at hmoves

/-! ## Every command ends -/

/-- Command `i` is running at a position of its rule, and neither the schedule nor the host's script resets the
engine. -/
structure State.Underway (s : State) (i : Instr) : Prop where
  busy : s.regs.busy = true
  op : s.hid.op = some i
  fits : s.hid.pos.fits i = true
  noReset : .assertReset ∉ s.turns
  noSoftReset : ∀ st ∈ s.script, st.softResets = false

/-- The engine is idle and zeroized, and reports a result (R210). -/
def State.Completed (s : State) : Prop := s.regs.busy = false ∧ s.regs.done = true ∧ s.hid = Hidden.zero

theorem complete_completed (s : State) (r : Result) (n : Nat) : (s.complete r n).Completed := ⟨rfl, rfl, rfl⟩

/-- The outcome ends the run of a command: in a stop of the model (logs 10, 14) or in its completion. -/
def EndsCommand (o : Out) : Prop :=
  o = .refused .deviceBuffer ∨ o = .fault .hostRace ∨ o = .fault .hostNoSuchAddress ∨
    ∃ t : State, o = .next t ∧ t.Completed

/-- At most how many steps a run of command `i` takes: the turns of the schedule, and the command's own steps. -/
def State.budget (s : State) (i : Instr) : Nat := s.turns.length + s.stepsLeft i s.hid.pos

/-- A step ends the run of command `i`, or goes on with it, and what it takes is taken off what is left. -/
def State.GoesOn (s : State) (i : Instr) (o : Out) : Prop :=
  EndsCommand o ∨
    ∃ t : State, o = .next t ∧ t.Underway i ∧ t.budget i < s.budget i ∧
      t.accessesLeft i t.hid.pos + s.accessNow.toNat ≤ s.accessesLeft i s.hid.pos

theorem accessesLeft_congr {s t : State} (hin : t.regs.inLen = s.regs.inLen) (had : t.regs.adLen = s.regs.adLen)
    (i : Instr) (p : Pos) : t.accessesLeft i p = s.accessesLeft i p := by
  unfold State.accessesLeft State.sealAccessesLeft State.openAccessesLeft State.plen State.clen State.inl State.adl
  rw [hin, had]

theorem accessNow_le {s : State} {i : Instr} (ho : s.hid.op = some i) : s.accessNow.toNat ≤ s.accessCost i := by
  simp only [State.accessNow, State.accessCost, ho]
  cases s.engineNext
  · exact Nat.zero_le _
  · exact Nat.le_refl _

/-- A step of the command under way, with what is left of the schedule, ends its run or goes on with it. -/
theorem exec_goesOn {s : State} {i : Instr} (hs : s.Underway i) {ts : List Turn} (hts : ts <:+ s.turns) :
    s.GoesOn i (exec i { s with turns := ts }) := by
  obtain ⟨hb, ho, hf, hr, hsoft⟩ := hs
  cases h : exec i { s with turns := ts } with
  | refused r => exact .inl (.inl (exec_refused h ▸ rfl))
  | fault f => exact absurd h (exec_ne_fault (s := { s with turns := ts }) hf f)
  | next t =>
    have completed (h : ∃ r n, t = State.complete { s with turns := ts } r n) : s.GoesOn i (.next t) := by
      obtain ⟨r, n, rfl⟩ := h
      exact .inl (.inr (.inr (.inr ⟨_, rfl, complete_completed _ r n⟩)))
    rcases exec_fits_outcomes (s := { s with turns := ts }) hf h with hc | ⟨m, d, rfl, hop, hfits, _⟩
    · exact completed hc
    · rcases exec_spends (s := { s with turns := ts }) hf h with hc | ⟨hacc, hsteps⟩
      · exact completed hc
      · refine .inr ⟨_, rfl, ⟨hb, hop.trans ho, hfits, fun h => hr (hts.subset h), hsoft⟩, ?_, ?_⟩
        · exact Nat.add_lt_add_of_le_of_lt hts.length_le hsteps
        · exact Nat.le_trans (Nat.add_le_add_left (accessNow_le ho) _) hacc

/-- A move that leaves the command alone takes its turn off the schedule. -/
theorem undisturbed_goesOn {s t : State} {i : Instr} (hs : s.Underway i) {c : Turn} {ts : List Turn}
    (hts : s.turns = c :: ts) (hc : s.engineNext = false) (h : State.Undisturbed { s with turns := ts } t) :
    s.GoesOn i (.next t) := by
  obtain ⟨hb, ho, hf, hr, hsoft⟩ := hs
  obtain ⟨hbusy, hin, had, hhid, hturns, hscript⟩ := h
  dsimp only at hbusy hin had hhid hturns hscript
  have hleft (p : Pos) : t.accessesLeft i p = s.accessesLeft i p := accessesLeft_congr hin had i p
  refine .inr ⟨t, rfl, ⟨hbusy.trans hb, hhid ▸ ho, hhid ▸ hf, ?_, fun st hst => hsoft st (hscript st hst)⟩, ?_, ?_⟩
  · rw [hturns]
    exact fun h => hr (hts ▸ List.mem_cons_of_mem c h)
  · simp only [State.budget, State.stepsLeft, hleft, hhid, hturns, hts, List.length_cons]
    omega
  · simp only [State.accessNow, hc, hleft, hhid, Bool.false_and, Bool.toNat_false, Nat.add_zero, Nat.le_refl]

theorem hostMoves_goesOn {s : State} {i : Instr} (hs : s.Underway i) {ts : List Turn} (hts : s.turns = .host :: ts)
    {o : Out} (h : State.HostMoves { s with turns := ts } o) : s.GoesOn i o := by
  cases o with
  | next t => exact undisturbed_goesOn hs hts (by simp only [State.engineNext, hts]) h
  | fault f =>
    rcases h with rfl | rfl
    · exact .inl (.inr (.inl rfl))
    · exact .inl (.inr (.inr (.inl rfl)))
  | refused r => exact h.elim

/-- Whoever moves, a step ends the run of the command under way or goes on with it (R161). -/
theorem step_goesOn {s : State} {i : Instr} (hs : s.Underway i) : s.GoesOn i (step s) := by
  cases hts : s.turns with
  | nil =>
    rw [step_busy hts hs.busy, engineStep_op hs.op]
    exact exec_goesOn hs (List.suffix_refl s.turns)
  | cons c ts =>
    rw [step_turn hts]
    cases c with
    | engine =>
      rw [State.move, engineStep_op (s := { s with turns := ts }) hs.op]
      exact exec_goesOn hs (hts ▸ List.suffix_cons _ ts)
    | host => exact hostMoves_goesOn hs hts (hostStep_moves (s := { s with turns := ts }) hs.busy hs.noSoftReset)
    | assertReset => exact absurd (hts ▸ List.mem_cons_self ..) hs.noReset
    | releaseReset =>
      exact undisturbed_goesOn hs hts (by simp only [State.engineNext, hts]) ⟨rfl, rfl, rfl, rfl, rfl, fun _ => id⟩

/-- The run from `s` ends its command after `n` steps, the engine being busy until then, and tries at most `k` memory
accesses. -/
structure State.EndsIn (s : State) (n k : Nat) : Prop where
  accesses_le : accesses n s ≤ k
  busy : ∀ m < n, ∃ u : State, Host.Core.run core m s = .next u ∧ u.regs.busy = true
  ends : EndsCommand (Host.Core.run core n s)

theorem accesses_succ {s t : State} (h : step s = .next t) (n : Nat) :
    accesses (n + 1) s = s.accessNow.toNat + accesses n t := by
  simp only [accesses, h]
  cases s.accessNow <;> rfl

theorem accesses_one_le (s : State) : accesses 1 s ≤ s.accessNow.toNat := by
  unfold accesses
  cases s.accessNow <;> cases step s <;> exact Nat.le_refl _

theorem run_one (s : State) : Host.Core.run core 1 s = step s := by
  cases h : step s with
  | next t => exact run_succ (M := core) h 0
  | fault _ | refused _ =>
    simp only [Host.Core.run, show core.step s = _ from h]
    rfl

theorem endsIn_one {s : State} (hb : s.regs.busy = true) (h : EndsCommand (step s)) :
    s.EndsIn 1 s.accessNow.toNat := by
  refine ⟨accesses_one_le s, fun m hm => ?_, run_one s ▸ h⟩
  obtain rfl : m = 0 := Nat.lt_one_iff.mp hm
  exact ⟨s, rfl, hb⟩

theorem endsIn_succ {s t : State} {n k : Nat} (hb : s.regs.busy = true) (h : step s = .next t) (ht : t.EndsIn n k) :
    s.EndsIn (n + 1) (s.accessNow.toNat + k) := by
  obtain ⟨hacc, hbusy, hends⟩ := ht
  refine ⟨accesses_succ h n ▸ Nat.add_le_add_left hacc _, fun m hm => ?_, (run_succ (M := core) h n).symm ▸ hends⟩
  cases m with
  | zero => exact ⟨s, rfl, hb⟩
  | succ m =>
    obtain ⟨u, hu, hub⟩ := hbusy m (Nat.lt_of_succ_lt_succ hm)
    exact ⟨u, (run_succ (M := core) h m).trans hu, hub⟩

/-- A command under way ends within its budget of steps and the accesses it has left: every step takes its part off
them. -/
theorem underway_ends (b : Nat) :
    ∀ {s : State} {i : Instr}, s.Underway i → s.budget i ≤ b →
      ∃ n ≤ s.budget i, s.EndsIn n (s.accessesLeft i s.hid.pos) := by
  induction b with
  | zero =>
    intro s i hs hbudget
    exact absurd (stepsLeft_pos hs.fits s) (by unfold State.budget at hbudget; omega)
  | succ b ih =>
    intro s i hs hbudget
    rcases step_goesOn hs with hends | ⟨t, hstep, ht, hless, hacc⟩
    · have hpos : 1 ≤ s.budget i := Nat.le_add_left_of_le (stepsLeft_pos hs.fits s)
      obtain ⟨haccesses, hbusy, hend⟩ := endsIn_one hs.busy hends
      have hle := Nat.le_trans (accessNow_le hs.op) (accessCost_le s i)
      exact ⟨1, hpos, Nat.le_trans haccesses hle, hbusy, hend⟩
    · obtain ⟨n, hn, ht'⟩ := ih ht (by omega)
      obtain ⟨haccesses, hbusy, hend⟩ := endsIn_succ hs.busy hstep ht'
      exact ⟨n + 1, by omega, by omega, hbusy, hend⟩

/-- Settles O58: a command just accepted is under way at CHECK, where the spec's bounds hold of what is left. -/
theorem everyCommandEnds : Obligations.EveryCommandEnds := by
  intro s i hb hfresh hreset hsoft
  have hs : s.Underway i := by
    refine ⟨hb, ?_, ?_, hreset, hsoft⟩
    · rw [hfresh]; rfl
    · rw [hfresh]; exact fits_check i
  have hpos : s.hid.pos = .check := by rw [hfresh]; rfl
  obtain ⟨n, hn, haccesses, hbusy, hend⟩ := underway_ends _ hs (Nat.le_refl _)
  rw [State.budget, hpos] at hn
  rw [hpos] at haccesses
  exact ⟨n, Nat.le_trans hn (Nat.add_le_add_left (stepsLeft_check s i) _),
    Nat.le_trans haccesses (accessesLeft_check s i), hbusy, hend⟩

end Sys2Proof.Machine

namespace Sys2Proof.Machine

/-! ## Byte strings in memory -/

theorem writeSeq_append (m : Memory) (a : Nat) (bs cs : List Byte) :
    m.writeSeq a (bs ++ cs) = (m.writeSeq a bs).writeSeq (a + bs.length) cs := by
  induction bs generalizing m a with
  | nil => rfl
  | cons b bs ih =>
    rw [List.length_cons, Nat.add_comm bs.length, ← Nat.add_assoc]
    exact ih _ _

/-- One more byte of a byte string is written after the others. -/
theorem writeSeq_concat (m : Memory) (a : Nat) (bs : List Byte) (b : Byte) :
    m.writeSeq a (bs ++ [b]) = (m.writeSeq a bs).write (a + bs.length) b :=
  writeSeq_append m a bs [b]

/-- A byte string written is read back whole. -/
theorem writeSeq_readSeq (m : Memory) (a : Nat) {bs : List Byte} {n : Nat} (hn : bs.length = n) :
    (m.writeSeq a bs).readSeq a n = bs := by
  subst hn
  refine List.ext_getElem (by simp) fun j _ hj => ?_
  simp [read_writeSeq, hj]

/-- A byte outside a byte string written reads as before. -/
theorem read_writeSeq_outside {a x : Nat} {bs : List Byte} (h : ¬(a ≤ x ∧ x < a + bs.length)) (m : Memory) :
    (m.writeSeq a bs).read x = m.read x := by
  rw [read_writeSeq, dif_neg h]

/-- Two regions that read the same byte for byte read the same whole. -/
theorem readSeq_congr {m m' : Memory} {a b n : Nat} (h : ∀ j < n, m.read (a + j) = m'.read (b + j)) :
    m.readSeq a n = m'.readSeq b n :=
  List.map_congr_left fun j hj => h j (List.mem_range.mp hj)

/-- A region's bytes past the first `n` are those of the region that starts `n` bytes up. -/
theorem readSeq_add (m : Memory) (a n k : Nat) : m.readSeq a (n + k) = m.readSeq a n ++ m.readSeq (a + n) k := by
  simp [Memory.readSeq, List.range_add, Nat.add_assoc]

/-! ## Runs of the engine alone -/

/-- Command `i` is running and the host does not move. -/
abbrev State.Running (s : State) (i : Instr) : Prop := s.turns = [] ∧ s.regs.busy = true ∧ s.hid.op = some i

/-- In `n` steps, `k` of which try a memory access, the machine gets from `s` to `t`. -/
def State.RunsTo (s : State) (n k : Nat) (t : State) : Prop := Host.Core.run core n s = .next t ∧ accesses n s = k

theorem runsTo_zero (s : State) : s.RunsTo 0 0 s := ⟨rfl, rfl⟩

theorem accesses_add {j : Nat} (k : Nat) :
    ∀ {s t : State}, Host.Core.run core j s = .next t → accesses (j + k) s = accesses j s + accesses k t := by
  induction j with
  | zero =>
    intro s t h
    cases h
    rw [Nat.zero_add, accesses, Nat.zero_add]
  | succ j ih =>
    intro s t h
    cases hstep : step s with
    | next u =>
      rw [Nat.add_right_comm, accesses_succ hstep, accesses_succ hstep,
        ih ((run_succ (M := core) hstep j).symm.trans h), Nat.add_assoc]
    | fault _ | refused _ => simp [Host.Core.run, show core.step s = _ from hstep] at h

theorem runsTo_trans {s t u : State} {n k n' k' : Nat} (h : s.RunsTo n k t) (h' : t.RunsTo n' k' u) :
    s.RunsTo (n + n') (k + k') u := by
  obtain ⟨hrun, rfl⟩ := h
  obtain ⟨hrun', rfl⟩ := h'
  exact ⟨(run_add n n' hrun).trans hrun', accesses_add n' hrun⟩

/-- A loop whose every turn takes `n` steps with `k` accesses. -/
theorem runsTo_loop {f : Nat → State} {n k c : Nat} (h : ∀ j < c, (f j).RunsTo n k (f (j + 1))) :
    (f 0).RunsTo (c * n) (c * k) (f c) := by
  induction c with
  | zero =>
    rw [Nat.zero_mul, Nat.zero_mul]
    exact runsTo_zero _
  | succ c ih =>
    rw [Nat.succ_mul, Nat.succ_mul]
    exact runsTo_trans (ih fun j hj => h j (Nat.lt_succ_of_lt hj)) (h c (Nat.lt_succ_self c))

/-- A loop whose every turn is one step with its access. -/
theorem runsTo_accesses {f : Nat → State} {c : Nat} (h : ∀ j < c, (f j).RunsTo 1 1 (f (j + 1))) :
    (f 0).RunsTo c c (f c) := by
  have hrun := runsTo_loop h
  rwa [Nat.mul_one] at hrun

theorem runsTo_congr {s t u : State} {n k n' k' : Nat} (h : s.RunsTo n k t) (hn : n = n') (hk : k = k') (ht : t = u) :
    s.RunsTo n' k' u := by
  subst hn hk ht
  exact h

theorem runsTo_step {s t : State} {i : Instr} (hr : s.Running i) (h : exec i s = .next t) :
    s.RunsTo 1 (s.accessCost i) t := by
  obtain ⟨ht, hb, ho⟩ := hr
  have hstep : step s = .next t := (step_busy ht hb).trans ((engineStep_op ho).trans h)
  refine ⟨(run_one s).trans hstep, (accesses_succ hstep 0).trans ?_⟩
  simp only [accesses, State.accessNow, State.engineNext, ht, hb, ho, Bool.true_and, State.accessCost, Nat.add_zero]

/-- A step of the command without an access. -/
theorem runsTo_silent {s t : State} {i : Instr} (hr : s.Running i) (hno : s.nextAccess i = none)
    (h : exec i s = .next t) : s.RunsTo 1 0 t := by
  have hrun := runsTo_step hr h
  rwa [State.accessCost, hno] at hrun

/-- A step of the command with its access. -/
theorem runsTo_access {s t : State} {i : Instr} (hr : s.Running i) (hacc : (s.nextAccess i).isSome = true)
    (h : exec i s = .next t) : s.RunsTo 1 1 t := by
  have hrun := runsTo_step hr h
  rwa [State.accessCost, hacc] at hrun

/-! ## The transform -/

/-- Byte `j` of the input XORed with its keystream byte (R120). -/
def State.xformByte (s : State) (j : Nat) : Byte :=
  s.mem.read (s.ina + j) ^^^ ksByte s.plat s.keyBytes s.nonceBytes (64 + j)

/-- The first `n` bytes of the input XORed with the keystream from position 64 (R120). -/
def State.xformBytes (s : State) (n : Nat) : List Byte := xorBytes (s.mem.readSeq s.ina n) (s.payKeystream n)

@[simp] theorem payKeystream_length (s : State) (n : Nat) : (s.payKeystream n).length = n := by
  simp [State.payKeystream]

@[simp] theorem xformBytes_length (s : State) (n : Nat) : (s.xformBytes n).length = n := by
  simp [State.xformBytes, xorBytes]

theorem xformBytes_succ (s : State) (n : Nat) :
    s.xformBytes (n + 1) = s.xformBytes n ++ [s.xformByte n] := by
  have hks : s.payKeystream (n + 1) = s.payKeystream n ++ [ksByte s.plat s.keyBytes s.nonceBytes (64 + n)] := by
    simp [State.payKeystream, List.range_succ]
  rw [State.xformBytes, readSeq_succ, hks, xorBytes, List.zipWith_append (by simp)]
  rfl

/-- `s` with the first `j` bytes of the payload transformed (R120). -/
def State.afterXform (s : State) (j : Nat) : State :=
  { s with
    mem := s.mem.writeSeq s.outa (s.xformBytes j)
    hid := { s.hid with outBytes := s.xformBytes j, kspos := 64 + j, pos := .xformRead j } }

theorem xformRead_runs {s : State} {i : Instr} {j : Nat} (hr : s.Running i) (hp : s.hid.pos = .xformRead j)
    (hj : j < s.payLen) (hok : memOk s.plat .read (s.ina + j) = true) (hdev : isDevice s.plat (s.ina + j) = false) :
    s.RunsTo 1 1 (s.goto (.xformWrite j
      (s.mem.read (s.ina + j) ^^^ ksByte s.plat s.keyBytes s.nonceBytes s.hid.kspos))) := by
  have ⟨_, _, ho⟩ := hr
  obtain ⟨hstep, _⟩ := transformSteps s j
  obtain ⟨hseal, hopen⟩ := hstep hp hok hdev
  cases i with
  | sealCmd =>
    rw [payLen_seal ho] at hj
    have hacc : (s.nextAccess .sealCmd).isSome = true := by
      simp only [State.nextAccess, State.sealAccess, hp, if_pos hj, Option.isSome_some]
    exact runsTo_access hr hacc (hseal hj)
  | openCmd =>
    rw [payLen_open ho] at hj
    have hacc : (s.nextAccess .openCmd).isSome = true := by
      simp only [State.nextAccess, State.openAccess, hp, if_pos hj, Option.isSome_some]
    exact runsTo_access hr hacc (hopen hj)
  | badCmd w => simp [State.payLen, ho] at hj

theorem xformWrite_runs {s : State} {i : Instr} {j : Nat} {y : Byte} (hr : s.Running i)
    (hp : s.hid.pos = .xformWrite j y) (hj : j < s.payLen) (hok : memOk s.plat .write (s.outa + j) = true)
    (hdev : isDevice s.plat (s.outa + j) = false) :
    s.RunsTo 1 1 (({ s with mem := s.mem.write (s.outa + j) y } : State).xformAdvance j y) := by
  have ⟨_, _, ho⟩ := hr
  obtain ⟨_, hstep, _⟩ := transformSteps s j
  obtain ⟨hseal, hopen⟩ := hstep y hp hok hdev
  cases i with
  | sealCmd => exact runsTo_access hr (by simp only [State.nextAccess, State.sealAccess, hp, Option.isSome_some]) hseal
  | openCmd => exact runsTo_access hr (by simp only [State.nextAccess, State.openAccess, hp, Option.isSome_some]) hopen
  | badCmd w => simp [State.payLen, ho] at hj

theorem afterXform_succ (s : State) (j : Nat) :
    s.afterXform (j + 1) =
      State.xformAdvance
        { s.afterXform j with mem := (s.afterXform j).mem.write (s.outa + j) (s.xformByte j) } j (s.xformByte j) := by
  rw [State.afterXform, xformBytes_succ, writeSeq_concat, xformBytes_length]
  rfl

/-- The writes before byte `j` have not touched the input byte that is read for it. -/
theorem afterXform_byte {s : State} {j : Nat} (hunspoilt : ∀ k < j, s.outa + k ≠ s.ina + j) :
    (s.afterXform j).mem.read (s.ina + j) = s.mem.read (s.ina + j) := by
  refine read_writeSeq_outside (fun ⟨hlo, hhi⟩ => ?_) s.mem
  rw [xformBytes_length] at hhi
  exact hunspoilt (s.ina + j - s.outa) (by omega) (by omega)

/-- Byte `j` is transformed in two steps. -/
theorem afterXform_step {s : State} {i : Instr} {j : Nat} (hr : s.Running i) (hj : j < s.payLen)
    (hread : s.CanRead s.ina s.payLen) (hwrite : s.CanWrite s.outa s.payLen)
    (hunspoilt : ∀ k < j, s.outa + k ≠ s.ina + j) : (s.afterXform j).RunsTo 2 2 (s.afterXform (j + 1)) := by
  obtain ⟨hrok, hrdev⟩ := hread j hj
  obtain ⟨hwok, hwdev⟩ := hwrite j hj
  have hxform : (s.afterXform j).RunsTo 1 1 ((s.afterXform j).goto (.xformWrite j (s.xformByte j))) := by
    have h := xformRead_runs (s := s.afterXform j) hr rfl hj hrok hrdev
    rw [show (s.afterXform j).mem.read ((s.afterXform j).ina + j) = _ from afterXform_byte hunspoilt] at h
    exact h
  rw [afterXform_succ]
  exact runsTo_trans hxform
    (xformWrite_runs (s := (s.afterXform j).goto (.xformWrite j (s.xformByte j))) hr rfl hj hwok hwdev)

/-- The transform of the whole payload, two steps and two accesses a byte (R120). -/
theorem xform_runs {s : State} {i : Instr} (hr : s.Running i) (hread : s.CanRead s.ina s.payLen)
    (hwrite : s.CanWrite s.outa s.payLen) (hunspoilt : ∀ j < s.payLen, ∀ k < j, s.outa + k ≠ s.ina + j) :
    (s.afterXform 0).RunsTo (s.payLen * 2) (s.payLen * 2) (s.afterXform s.payLen) :=
  runsTo_loop (f := s.afterXform) fun j hj => afterXform_step hr hj hread hwrite (hunspoilt j hj)

/-! ## The reads of MACBUILD -/

/-- `s` with the first `j` bytes of the AD read (R130). -/
def State.afterAd (s : State) (j : Nat) : State :=
  { s with hid := { s.hid with adBytes := s.mem.readSeq s.ada j, pos := .macAd j } }

/-- `s` with the first `j` bytes of the ciphertext read (R130). -/
def State.afterCt (s : State) (j : Nat) : State :=
  { s with hid := { s.hid with ctBytes := s.mem.readSeq s.ina j, pos := .macCt j } }

theorem afterAd_succ (s : State) (j : Nat) :
    s.afterAd (j + 1) =
      { s.afterAd j with hid := { (s.afterAd j).hid with
          adBytes := (s.afterAd j).hid.adBytes ++ [s.mem.read (s.ada + j)], pos := .macAd (j + 1) } } := by
  rw [State.afterAd, readSeq_succ]
  rfl

theorem afterCt_succ (s : State) (j : Nat) :
    s.afterCt (j + 1) =
      { s.afterCt j with hid := { (s.afterCt j).hid with
          ctBytes := (s.afterCt j).hid.ctBytes ++ [s.mem.read (s.ina + j)], pos := .macCt (j + 1) } } := by
  rw [State.afterCt, readSeq_succ]
  rfl

/-- The reads of the whole AD by either command (R130). -/
theorem macAd_runs {s : State} {i : Instr} (hr : s.Running i) (hi : i = .sealCmd ∨ i = .openCmd)
    (hread : s.CanRead s.ada s.adl) : (s.afterAd 0).RunsTo s.adl s.adl (s.afterAd s.adl) := by
  refine runsTo_accesses (f := s.afterAd) fun j hj => ?_
  obtain ⟨hok, hdev⟩ := hread j hj
  obtain ⟨hstep, _⟩ := macBuildSteps (s.afterAd j) j
  obtain ⟨hseal, hopen⟩ := hstep rfl hj hok hdev
  rw [afterAd_succ]
  rcases hi with rfl | rfl
  · exact runsTo_access (s := s.afterAd j) hr (congrArg Option.isSome (if_pos hj)) hseal
  · exact runsTo_access (s := s.afterAd j) hr (congrArg Option.isSome (if_pos hj)) hopen

/-- The reads of the whole ciphertext by OPEN (R130). -/
theorem macCt_runs {s : State} (hr : s.Running .openCmd) (hread : s.CanRead s.ina s.clen) :
    (s.afterCt 0).RunsTo s.clen s.clen (s.afterCt s.clen) := by
  refine runsTo_accesses (f := s.afterCt) fun j hj => ?_
  obtain ⟨hok, hdev⟩ := hread j hj
  obtain ⟨_, _, hstep, _⟩ := macBuildSteps (s.afterCt j) j
  rw [afterCt_succ]
  exact runsTo_access (s := s.afterCt j) hr (congrArg Option.isSome (if_pos hj)) (hstep rfl hj hok hdev)

/-! ## The tag and ZEROFILL -/

/-- `s` with the first `j` bytes of the tag written after the payload (R141). -/
def State.afterTagWrite (s : State) (j : Nat) : State :=
  { s with
    mem := s.mem.writeSeq (s.outa + s.plen) (s.hid.etag.toList.take j)
    hid := { s.hid with pos := .tagWrite j } }

/-- CTAG with its first `j` bytes those of the claimed tag (R142). -/
def State.ctagRead (s : State) (j : Nat) : Tag :=
  Vector.ofFn fun k => if k.val < j then s.mem.read (s.ina + s.clen + k.val) else s.hid.ctag[k]

/-- `s` with the first `j` bytes of the claimed tag read (R142). -/
def State.afterTagRead (s : State) (j : Nat) : State :=
  { s with hid := { s.hid with ctag := s.ctagRead j, pos := .tagRead j } }

/-- `s` with the first `j` bytes of the window cleared (R145). -/
def State.afterZero (s : State) (j : Nat) : State :=
  { s with
    mem := s.mem.writeSeq s.outa (List.replicate j 0)
    hid := { s.hid with pos := .zeroFill j } }

theorem afterTagWrite_succ (s : State) (j : Fin 16) :
    s.afterTagWrite (j.val + 1) =
      { s.afterTagWrite j.val with
        mem := (s.afterTagWrite j.val).mem.write (s.outa + s.plen + j.val) s.hid.etag[j]
        hid := { (s.afterTagWrite j.val).hid with pos := .tagWrite (j.val + 1) } } := by
  have hj : j.val < s.hid.etag.toList.length := by simp
  have hlen : (s.hid.etag.toList.take j.val).length = j.val := List.length_take_of_le (Nat.le_of_lt hj)
  rw [State.afterTagWrite, List.take_succ_eq_append_getElem hj, writeSeq_concat, hlen, Vector.getElem_toList]
  rfl

theorem ctagRead_zero (s : State) : s.ctagRead 0 = s.hid.ctag := by
  ext k hk : 1
  simp [State.ctagRead]

theorem ctagRead_succ (s : State) (j : Fin 16) :
    s.ctagRead (j.val + 1) = (s.ctagRead j.val).set j (s.mem.read (s.ina + s.clen + j.val)) := by
  ext k hk : 1
  simp only [State.ctagRead, Vector.getElem_set, Vector.getElem_ofFn]
  by_cases hkj : j.val = k
  · subst hkj
    rw [if_pos (Nat.lt_succ_self _), if_pos rfl]
  · rw [if_neg hkj]
    exact if_congr (by omega) rfl rfl

theorem afterTagRead_zero (s : State) : s.afterTagRead 0 = s.goto (.tagRead 0) := by
  rw [State.afterTagRead, ctagRead_zero]
  rfl

theorem afterTagRead_succ (s : State) (j : Fin 16) :
    s.afterTagRead (j.val + 1) =
      { s.afterTagRead j.val with hid := { (s.afterTagRead j.val).hid with
          ctag := (s.afterTagRead j.val).hid.ctag.set j (s.mem.read (s.ina + s.clen + j.val))
          pos := .tagRead (j.val + 1) } } := by
  rw [State.afterTagRead, ctagRead_succ]
  rfl

theorem afterZero_succ (s : State) (j : Nat) :
    s.afterZero (j + 1) =
      { s.afterZero j with
        mem := (s.afterZero j).mem.write (s.outa + j) 0
        hid := { (s.afterZero j).hid with pos := .zeroFill (j + 1) } } := by
  rw [State.afterZero, List.replicate_succ', writeSeq_concat, List.length_replicate]
  rfl

/-- The whole tag is written after its 16 bytes. -/
theorem afterTagWrite_all (s : State) :
    s.afterTagWrite 16 =
      { s with
        mem := s.mem.writeSeq (s.outa + s.plen) s.hid.etag.toList
        hid := { s.hid with pos := .tagWrite 16 } } := by
  rw [State.afterTagWrite, List.take_of_length_le (by simp)]

/-- After its 16 bytes CTAG is the claimed tag. -/
theorem ctagRead_toList (s : State) : (s.ctagRead 16).toList = s.claimedTag := by
  refine List.ext_getElem (by simp [State.claimedTag]) fun k _ _ => ?_
  simp [State.ctagRead, State.claimedTag]

/-- The writes of the whole tag by SEAL (R141). -/
theorem tagWrite_runs {s : State} (hr : s.Running .sealCmd) (hwrite : s.CanWrite (s.outa + s.plen) 16) :
    (s.afterTagWrite 0).RunsTo 16 16 (s.afterTagWrite 16) := by
  refine runsTo_accesses (f := s.afterTagWrite) fun j hj => ?_
  obtain ⟨hok, hdev⟩ := hwrite j hj
  obtain ⟨_, hstep⟩ := tagComputeAndAppend (s.afterTagWrite j)
  rw [show s.afterTagWrite (j + 1) = _ from afterTagWrite_succ s ⟨j, hj⟩]
  exact runsTo_access (s := s.afterTagWrite j) hr (congrArg Option.isSome (if_pos hj)) (hstep ⟨j, hj⟩ rfl hok hdev)

/-- The reads of the whole claimed tag by OPEN (R142). -/
theorem tagRead_runs {s : State} (hr : s.Running .openCmd) (hread : s.CanRead (s.ina + s.clen) 16) :
    (s.afterTagRead 0).RunsTo 16 16 (s.afterTagRead 16) := by
  refine runsTo_accesses (f := s.afterTagRead) fun j hj => ?_
  obtain ⟨hok, hdev⟩ := hread j hj
  obtain ⟨_, hstep, _⟩ := tagVerifySteps (s.afterTagRead j)
  rw [show s.afterTagRead (j + 1) = _ from afterTagRead_succ s ⟨j, hj⟩]
  exact runsTo_access (s := s.afterTagRead j) hr (congrArg Option.isSome (if_pos hj)) (hstep ⟨j, hj⟩ rfl hok hdev)

/-- The zeros of the whole window by OPEN (R145). -/
theorem zeroFill_runs {s : State} (hr : s.Running .openCmd) (hwrite : s.CanWrite s.outa s.clen) :
    (s.afterZero 0).RunsTo s.clen s.clen (s.afterZero s.clen) := by
  refine runsTo_accesses (f := s.afterZero) fun j hj => ?_
  obtain ⟨hok, hdev⟩ := hwrite j hj
  obtain ⟨hstep, _⟩ := zeroFillSteps (s.afterZero j) j rfl
  rw [afterZero_succ]
  exact runsTo_access (s := s.afterZero j) hr (congrArg Option.isSome (if_pos hj)) (hstep hj hok hdev)

end Sys2Proof.Machine

namespace Sys2Proof.Machine

/-! ## Whole commands -/

/-- Completed from a state that differs from `s` in memory and hidden state only, a command ends as `ended` says. -/
theorem complete_ended {s t : State} {m : Memory} {h : Hidden} (ht : t = { s with mem := m, hid := h })
    (hf : s.regs.fatal = false) {r : Result} {n : Nat} (hn : r ≠ .ok → n = 0) : t.complete r n = s.ended m r n := by
  subst ht
  have hlen : (if r = .ok then BitVec.ofNat 32 n else 0) = BitVec.ofNat 32 n := by
    split_ifs with hr
    · rfl
    · rw [hn hr]
      rfl
  simp only [State.complete, State.ended, hf, hlen, Bool.false_or]

theorem exec_openCmd_cleared {s : State} {j : Nat} (hp : s.hid.pos = .zeroFill j) (hj : s.clen ≤ j) :
    exec .openCmd s = .next (s.complete .authFail 0) := by
  simp only [exec, execOpenCmd, hp, if_neg (Nat.not_lt.mpr hj), raise_eq]

theorem accepted_running {s : State} {i : Instr} (hs : s.Accepted i) : s.Running i := by
  obtain ⟨hb, _, hfresh, ht⟩ := hs
  exact ⟨ht, hb, by rw [hfresh]; rfl⟩

theorem exec_sealCmd_keySched {s : State} (hp : s.hid.pos = .keySched) :
    exec .sealCmd s = .next (s.keySched (.xformRead 0)) := by
  simp only [exec, execSealCmd, hp]

theorem exec_openCmd_keySched {s : State} (hp : s.hid.pos = .keySched) :
    exec .openCmd s = .next (s.keySched (.macAd 0)) := by
  simp only [exec, execOpenCmd, hp]

/-- A command whose checks pass takes two steps to its first stage, whose position is `q` (R110, R150). -/
theorem keyed_runs {s : State} {i : Instr} {q : Pos} (hs : s.Accepted i)
    (hcheck : exec i s = .next (s.goto .keySched))
    (hkeys : exec i (s.goto .keySched) = .next ((s.goto .keySched).keySched q))
    (hok : ksInitOk s.plat s.keyBytes s.nonceBytes = true) : s.RunsTo 2 0 (s.pastKeySched q) := by
  have hr := accepted_running hs
  obtain ⟨_, _, hfresh, _⟩ := hs
  have hpos : s.hid.pos = .check := by rw [hfresh]; rfl
  have hkeyed : (s.goto .keySched).keySched q = s.pastKeySched q := by
    rw [keySched_fresh (s := s.goto .keySched) (by rw [goto_hid, hfresh]; rfl) hok]
    rfl
  have hquiet {t : State} (ht : t.hid.pos = .check ∨ t.hid.pos = .keySched) : t.nextAccess i = none := by
    rcases ht with ht | ht <;> cases i <;> simp only [State.nextAccess, State.sealAccess, State.openAccess, ht]
  rw [← hkeyed]
  exact runsTo_trans (runsTo_silent hr (hquiet (.inl hpos)) hcheck)
    (runsTo_silent (s := s.goto .keySched) hr (hquiet (.inr rfl)) hkeys)

/-- Where a window and an input region pass the overlap test, the bytes written before input byte `j` is read are none
of them that byte (R154, R155). -/
theorem unspoilt_of_not_inexact {a n b m : Nat} (h : inexact a n b m = false) {j k : Nat} (hj : j < m) (hjn : j ≤ n)
    (hk : k < j) : a + k ≠ b + j := by
  intro e
  have hlap : inexact a n b m = true := inexact_iff.mpr ⟨by omega, a + k, by omega, by omega⟩
  simp [hlap] at h

/-- What a SEAL that passes its checks has been checked for (R152, R153, R154). -/
theorem sealFlaw_none {s : State} (h : s.sealFlaw = none) :
    s.plen ≤ 2 ^ 32 - 17 ∧ inexact s.outa (s.plen + 16) s.ina s.plen = false := by
  rw [sealFlaw_eq] at h
  split_ifs at h with hbad hlap
  exact ⟨by omega, by simpa using hlap⟩

/-- What an OPEN that passes its checks has been checked for (D15, R155). -/
theorem openFlaw_none {s : State} (h : s.openFlaw = none) :
    16 ≤ s.inl ∧ inexact s.outa s.clen s.ina s.clen = false := by
  rw [openFlaw_eq] at h
  split_ifs at h with hshort hbad hlap
  exact ⟨by omega, by simpa using hlap⟩

/-! ### SEAL -/

/-- A SEAL accepted in `s`, its payload transformed. -/
def State.sealXformed (s : State) : State := (s.pastKeySched (.xformRead 0)).afterXform s.plen

/-- A SEAL accepted in `s`, its AD read. -/
def State.sealAdRead (s : State) : State := s.sealXformed.afterAd s.adl

/-- A SEAL accepted in `s`, its tag computed. -/
def State.sealTagged (s : State) : State :=
  (s.sealAdRead.macAssemble s.sealAdRead.hid.outBytes).tagCompute (.tagWrite 0)

theorem sealXformed_runs {s : State} (hr : s.Running .sealCmd) (hflaw : s.sealFlaw = none) (hreach : s.SealReach) :
    (s.pastKeySched (.xformRead 0)).RunsTo (s.plen * 2) (s.plen * 2) s.sealXformed := by
  obtain ⟨hread, _, hwrite⟩ := hreach
  obtain ⟨_, hlap⟩ := sealFlaw_none hflaw
  have ⟨_, _, ho⟩ := hr
  have hlen : (s.pastKeySched (.xformRead 0)).payLen = s.plen := payLen_seal ho
  have hrun := xform_runs (s := s.pastKeySched (.xformRead 0)) hr
  rw [hlen] at hrun
  exact hrun hread (fun j hj => hwrite j (by omega))
    fun j hj k hk => unspoilt_of_not_inexact hlap hj (by omega) hk

theorem sealTagged_runs {s : State} (hr : s.Running .sealCmd) (hreach : s.SealReach) :
    s.sealXformed.RunsTo (s.adl + 3) s.adl s.sealTagged := by
  obtain ⟨_, hread, _⟩ := hreach
  obtain ⟨_, _, hxformEnd⟩ := transformSteps s.sealXformed s.plen
  obtain ⟨_, hadEnd, _⟩ := macBuildSteps s.sealAdRead s.adl
  obtain ⟨hcompute, _⟩ := tagComputeAndAppend (s.sealAdRead.macAssemble s.sealAdRead.hid.outBytes)
  have hexit : s.sealXformed.RunsTo 1 0 (s.sealXformed.afterAd 0) :=
    runsTo_silent (s := s.sealXformed) hr (if_neg (Nat.lt_irrefl _)) (hxformEnd rfl (Nat.le_refl _))
  have had := macAd_runs (s := s.sealXformed) hr (.inl rfl) hread
  have hasm : s.sealAdRead.RunsTo 1 0 (s.sealAdRead.macAssemble s.sealAdRead.hid.outBytes) :=
    runsTo_silent (s := s.sealAdRead) hr (if_neg (Nat.lt_irrefl _)) (hadEnd rfl (Nat.le_refl _)).1
  have htag : (s.sealAdRead.macAssemble s.sealAdRead.hid.outBytes).RunsTo 1 0 s.sealTagged :=
    runsTo_silent (s := s.sealAdRead.macAssemble _) hr rfl (hcompute rfl)
  have hrun := runsTo_trans hexit (runsTo_trans had (runsTo_trans hasm htag))
  exact runsTo_congr hrun (Nat.add_left_comm 1 s.adl 2) (Nat.zero_add s.adl) rfl

/-- Settles O55: the stages of SEAL one after the other, from acceptance to the completion with OK. -/
theorem sealResult : Obligations.SealResult := by
  intro s hs hflaw hok hreach
  have hr := accepted_running hs
  have ⟨_, hfatal, hfresh, _⟩ := hs
  have hpos : s.hid.pos = .check := by rw [hfresh]; rfl
  have hkeyed := keyed_runs hs (exec_sealCmd_check hpos hflaw) (exec_sealCmd_keySched rfl) hok
  have hxform := sealXformed_runs hr hflaw hreach
  have htagged := sealTagged_runs hr hreach
  have happend := tagWrite_runs (s := s.sealTagged) hr fun j hj => by
    obtain ⟨_, _, hwrite⟩ := hreach
    rw [Nat.add_assoc]
    exact hwrite (s.plen + j) (by omega)
  have hdone := runsTo_silent (s := s.sealTagged.afterTagWrite 16) hr rfl (exec_sealCmd_done rfl (Nat.le_refl _))
  have hrun := runsTo_trans hkeyed (runsTo_trans hxform (runsTo_trans htagged (runsTo_trans happend hdone)))
  rw [afterTagWrite_all] at hrun
  exact runsTo_congr hrun (by omega) (by omega) (complete_ended rfl hfatal (absurd rfl))

/-! ### OPEN -/

/-- An OPEN accepted in `s`, its AD read. -/
def State.openAdRead (s : State) : State := (s.pastKeySched (.macAd 0)).afterAd s.adl

/-- An OPEN accepted in `s`, its ciphertext read. -/
def State.openCtRead (s : State) : State := s.openAdRead.afterCt s.clen

/-- An OPEN accepted in `s`, the expected tag computed. -/
def State.openTagged (s : State) : State :=
  (s.openCtRead.macAssemble s.openCtRead.hid.ctBytes).tagCompute (.tagRead 0)

/-- An OPEN accepted in `s`, the tags compared. -/
def State.openCompared (s : State) : State := ((s.openTagged.afterTagRead 16).goto .tagCompare).tagCompare

theorem openCtRead_runs {s : State} (hr : s.Running .openCmd) (hreach : s.OpenReach) :
    (s.pastKeySched (.macAd 0)).RunsTo (s.adl + 1 + s.clen) (s.adl + s.clen) s.openCtRead := by
  obtain ⟨hread, hreadAd, _⟩ := hreach
  have hclen : s.clen ≤ s.inl := Nat.sub_le _ _
  obtain ⟨_, hadEnd, _⟩ := macBuildSteps s.openAdRead s.adl
  have had := macAd_runs (s := s.pastKeySched (.macAd 0)) hr (.inr rfl) hreadAd
  have hexit : s.openAdRead.RunsTo 1 0 (s.openAdRead.afterCt 0) :=
    runsTo_silent (s := s.openAdRead) hr (if_neg (Nat.lt_irrefl _)) (hadEnd rfl (Nat.le_refl _)).2
  have hct := macCt_runs (s := s.openAdRead) hr fun j hj => hread j (Nat.lt_of_lt_of_le hj hclen)
  exact runsTo_trans (runsTo_trans had hexit) hct

theorem openCompared_runs {s : State} (hr : s.Running .openCmd) (hinl : 16 ≤ s.inl) (hreach : s.OpenReach) :
    s.openCtRead.RunsTo 20 16 s.openCompared := by
  obtain ⟨hread, _⟩ := hreach
  have hclen : s.clen = s.inl - 16 := rfl
  obtain ⟨_, _, _, hctEnd⟩ := macBuildSteps s.openCtRead s.clen
  obtain ⟨hcompute, _⟩ := tagVerifySteps (s.openCtRead.macAssemble s.openCtRead.hid.ctBytes)
  obtain ⟨_, _, hextracted, _⟩ := tagVerifySteps (s.openTagged.afterTagRead 16)
  obtain ⟨_, _, _, hdiff, _⟩ := tagVerifySteps ((s.openTagged.afterTagRead 16).goto .tagCompare)
  have hasm : s.openCtRead.RunsTo 1 0 (s.openCtRead.macAssemble s.openCtRead.hid.ctBytes) :=
    runsTo_silent (s := s.openCtRead) hr (if_neg (Nat.lt_irrefl _)) (hctEnd rfl (Nat.le_refl _))
  have htag : (s.openCtRead.macAssemble s.openCtRead.hid.ctBytes).RunsTo 1 0 (s.openTagged.afterTagRead 0) := by
    rw [afterTagRead_zero]
    exact runsTo_silent (s := s.openCtRead.macAssemble _) hr rfl (hcompute rfl)
  have hextract := tagRead_runs (s := s.openTagged) hr fun j hj => by
    rw [Nat.add_assoc]
    exact hread (s.clen + j) (by omega)
  have hexit : (s.openTagged.afterTagRead 16).RunsTo 1 0 ((s.openTagged.afterTagRead 16).goto .tagCompare) :=
    runsTo_silent (s := s.openTagged.afterTagRead 16) hr rfl (hextracted rfl)
  have hcompare : ((s.openTagged.afterTagRead 16).goto .tagCompare).RunsTo 1 0 s.openCompared :=
    runsTo_silent (s := (s.openTagged.afterTagRead 16).goto .tagCompare) hr rfl (hdiff rfl)
  exact runsTo_trans hasm (runsTo_trans htag (runsTo_trans hextract (runsTo_trans hexit hcompare)))

/-- The tag OPEN computes is the expected one, and the tag it reads the claimed one. -/
theorem openCompared_valid_iff (s : State) : s.openCompared.hid.diff = 0 ↔ s.claimedTag = s.openTag.toList := by
  show tagDiff s.openTag (s.openTagged.ctagRead 16) = 0 ↔ _
  rw [tagDiff_eq_zero_iff, ← Vector.toList_inj, ctagRead_toList]
  exact eq_comm

/-- An OPEN whose checks pass, up to its verdict (R163). -/
theorem openVerdict_runs {s : State} (hs : s.Accepted .openCmd) (hflaw : s.openFlaw = none)
    (hok : ksInitOk s.plat s.keyBytes s.nonceBytes = true) (hreach : s.OpenReach) :
    s.RunsTo (s.adl + s.clen + 24) (s.adl + s.clen + 16)
      (s.openCompared.goto (if s.claimedTag = s.openTag.toList then .xformRead 0 else .zeroFill 0)) := by
  have hr := accepted_running hs
  have ⟨_, _, hfresh, _⟩ := hs
  have hpos : s.hid.pos = .check := by rw [hfresh]; rfl
  have hkeyed := keyed_runs hs (exec_openCmd_check hpos hflaw) (exec_openCmd_keySched rfl) hok
  have hct := openCtRead_runs hr hreach
  have hcompared := openCompared_runs hr (openFlaw_none hflaw).1 hreach
  obtain ⟨_, _, _, _, hused⟩ := tagVerifySteps s.openCompared
  have hverdict := runsTo_silent (s := s.openCompared) hr rfl (hused rfl)
  simp only [openCompared_valid_iff] at hverdict
  have hrun := runsTo_trans hkeyed (runsTo_trans hct (runsTo_trans hcompared hverdict))
  exact runsTo_congr hrun (by omega) (by omega) rfl

/-- Settles O56: past a verdict of valid OPEN transforms its payload and completes with OK. -/
theorem openValidResult : Obligations.OpenValidResult := by
  intro s hs hflaw hok hreach htag
  have hr := accepted_running hs
  have ⟨_, hfatal, _⟩ := hs
  have hverdict := openVerdict_runs hs hflaw hok hreach
  rw [if_pos htag] at hverdict
  have ⟨_, _, ho⟩ := hr
  have hlen : s.openCompared.payLen = s.clen := payLen_open ho
  have hxform := xform_runs (s := s.openCompared) hr
  rw [hlen] at hxform
  have hclen : s.clen ≤ s.inl := Nat.sub_le _ _
  obtain ⟨hread, _, hwrite⟩ := hreach
  replace hxform := hxform (fun j hj => hread j (Nat.lt_of_lt_of_le hj hclen)) hwrite
    fun j hj k hk => unspoilt_of_not_inexact (openFlaw_none hflaw).2 hj (Nat.le_of_lt hj) hk
  have hdone := runsTo_silent (s := s.openCompared.afterXform s.clen) hr (if_neg (Nat.lt_irrefl _))
    (exec_openCmd_done rfl (Nat.le_refl _))
  have hrun := runsTo_trans hverdict (runsTo_trans hxform hdone)
  exact runsTo_congr hrun (by omega) (by omega) (complete_ended rfl hfatal (absurd rfl))

/-- Settles O57: past a verdict of invalid OPEN clears its window and completes with AUTH_FAIL. -/
theorem openInvalidResult : Obligations.OpenInvalidResult := by
  intro s hs hflaw hok hreach htag
  have hr := accepted_running hs
  have ⟨_, hfatal, _⟩ := hs
  have hverdict := openVerdict_runs hs hflaw hok hreach
  rw [if_neg htag] at hverdict
  obtain ⟨_, _, hwrite⟩ := hreach
  have hzero : (s.openCompared.afterZero 0).RunsTo s.clen s.clen (s.openCompared.afterZero s.clen) :=
    zeroFill_runs (s := s.openCompared) hr hwrite
  have hdone := runsTo_silent (s := s.openCompared.afterZero s.clen) hr (if_neg (Nat.lt_irrefl _))
    (exec_openCmd_cleared rfl (Nat.le_refl _))
  have hrun := runsTo_trans hverdict (runsTo_trans hzero hdone)
  obtain ⟨hfinal, haccesses⟩ : s.RunsTo (s.adl + 2 * s.clen + 25) (s.adl + 2 * s.clen + 16)
      (s.ended (s.mem.writeSeq s.outa (List.replicate s.clen 0)) .authFail 0) :=
    runsTo_congr hrun (by omega) (by omega) (complete_ended rfl hfatal fun _ => rfl)
  refine ⟨_, hfinal, rfl, haccesses, fun x => ?_⟩
  show (s.mem.writeSeq s.outa (List.replicate s.clen 0)).read x = _
  simp [read_writeSeq]

end Sys2Proof.Machine

namespace Sys2Proof.Machine

/-! ## What SEAL and OPEN are as functions of their inputs -/

theorem sealCipher_length (s : State) : s.sealCipher.length = s.plen := xformBytes_length s s.plen

/-- After a SEAL its window holds the ciphertext and then the tag (R162). -/
theorem sealMem_window (s : State) :
    s.sealMem.readSeq s.outa (s.plen + 16) = s.sealCipher ++ s.sealTag.toList := by
  have hmem : s.sealMem = s.mem.writeSeq s.outa (s.sealCipher ++ s.sealTag.toList) := by
    rw [writeSeq_append, sealCipher_length]
    rfl
  rw [hmem]
  exact writeSeq_readSeq _ _ (by simp [sealCipher_length])

/-- The AD of a SEAL is outside the ciphertext's window (R138, R166). -/
abbrev State.AdApart (s : State) : Prop :=
  ∀ x, s.ada ≤ x → x < s.ada + s.adl → ¬(s.outa ≤ x ∧ x < s.outa + s.plen)

/-- The transform of a SEAL leaves an AD outside its window as it was. -/
theorem sealXformMem_ad {s : State} (h : s.AdApart) :
    s.sealXformMem.readSeq s.ada s.adl = s.mem.readSeq s.ada s.adl := by
  refine readSeq_congr fun j hj => read_writeSeq_outside ?_ s.mem
  rw [sealCipher_length]
  exact h (s.ada + j) (Nat.le_add_right _ _) (Nat.add_lt_add_left hj _)

theorem sealTag_of_adApart {s : State} (h : s.AdApart) :
    s.sealTag = macTag s.plat s.otkOf (macInput (s.mem.readSeq s.ada s.adl) s.sealCipher) := by
  rw [State.sealTag, sealXformMem_ad h]

/-- Two commands with the same KEY and NONCE registers have the same key and nonce (R33, R34). -/
theorem keys_congr {s t : State} (hkey : t.regs.key = s.regs.key) (hnonce : t.regs.nonce = s.regs.nonce) :
    t.keyBytes = s.keyBytes ∧ t.nonceBytes = s.nonceBytes := by
  simp only [State.keyBytes, State.nonceBytes, hkey, hnonce, and_self]

/-- The keystream collaborator is a function of the platform's cipher (R180). -/
theorem ksBlock_congr {p q : Platform} (h : q.cipher = p.cipher) : ksBlock q = ksBlock p := by
  funext k n ctr
  simp only [ksBlock, h]

theorem ksByte_congr {p q : Platform} (h : q.cipher = p.cipher) : ksByte q = ksByte p := by
  funext k n pos
  simp only [ksByte, ksBlock_congr h]

theorem deriveOtk_congr {p q : Platform} (h : q.cipher = p.cipher) : deriveOtk q = deriveOtk p := by
  funext k n
  simp only [deriveOtk, ksBlock_congr h]

theorem ksInitOk_congr {p q : Platform} (hcipher : q.cipher = p.cipher) (hrefuses : q.refuses = p.refuses) :
    ksInitOk q = ksInitOk p := by
  funext k n
  simp only [ksInitOk, hcipher, hrefuses]

/-- The MAC collaborator is a function of the platform's MAC (R181). -/
theorem macTag_congr {p q : Platform} (h : q.mac = p.mac) : macTag q = macTag p := by
  funext k m
  simp only [macTag, h]

/-- The one-time key and the keystream are functions of the cipher, the key and the nonce (R111, R113). -/
theorem keystream_congr {s t : State} (hcipher : t.plat.cipher = s.plat.cipher) (hkey : t.keyBytes = s.keyBytes)
    (hnonce : t.nonceBytes = s.nonceBytes) : t.otkOf = s.otkOf ∧ ∀ n, t.payKeystream n = s.payKeystream n := by
  simp only [State.otkOf, State.payKeystream, deriveOtk_congr hcipher, ksByte_congr hcipher, hkey, hnonce,
    implies_true, and_self]

/-- The exclusive OR with a string of the same length undoes itself. -/
theorem xorBytes_xorBytes {a b : List Byte} (h : a.length = b.length) : xorBytes (xorBytes a b) b = a := by
  refine List.ext_getElem (by simp [xorBytes, h]) fun j _ _ => ?_
  simp [xorBytes]

/-- A region that reads as one string and then another has them in its two parts. -/
theorem readSeq_parts {m : Memory} {a n k : Nat} {bs cs : List Byte} (hbs : bs.length = n)
    (h : m.readSeq a (n + k) = bs ++ cs) : m.readSeq a n = bs ∧ m.readSeq (a + n) k = cs := by
  rw [readSeq_add] at h
  exact List.append_inj h ((readSeq_length m a n).trans hbs.symm)

/-- Settles O60: the ciphertext and the tag, which are what the window holds, are equal part by part. -/
theorem sealOutputDependsOnlyOnItsInputs : Obligations.SealOutputDependsOnlyOnItsInputs := by
  intro s s' hs hs' hflaw hflaw' hreach hreach' hok hcipher hrefuses hmac hkey hnonce hplen hadl hin had hapart hapart'
  obtain ⟨hk, hn⟩ := keys_congr hkey hnonce
  obtain ⟨hotk, hks⟩ := keystream_congr hcipher hk hn
  have hok' : ksInitOk s'.plat s'.keyBytes s'.nonceBytes = true := by
    rw [ksInitOk_congr hcipher hrefuses, hk, hn, hok]
  have hC : s'.sealCipher = s.sealCipher := by
    rw [State.sealCipher, State.sealCipher, hplen, hks, readSeq_congr hin]
  have hT : s'.sealTag = s.sealTag := by
    rw [sealTag_of_adApart hapart, sealTag_of_adApart hapart', macTag_congr hmac, hotk, hC, hadl, readSeq_congr had]
  refine ⟨_, _, _, _, (sealResult s hs hflaw hok hreach).1, (sealResult s' hs' hflaw' hok' hreach').1,
    rfl, rfl, rfl, rfl, rfl, rfl, ?_, ?_⟩
  · show BitVec.ofNat 32 (s'.plen + 16) = BitVec.ofNat 32 (s.plen + 16)
    rw [hplen]
  · show s'.sealMem.readSeq s'.outa (s.plen + 16) = s.sealMem.readSeq s.outa (s.plen + 16)
    rw [sealMem_window, ← hplen, sealMem_window, hC, hT]

/-- Settles O59: the claimed tag of the OPEN is SEAL's, over the same AD and ciphertext, and its keystream undoes
SEAL's. -/
theorem openUndoesSeal : Obligations.OpenUndoesSeal := by
  intro s o hs hflaw hok hreach hapart ho hoflaw horeach hplat hkey hnonce hina hinl hadl hwin had
  obtain ⟨hk, hn⟩ := keys_congr hkey hnonce
  obtain ⟨hotk, hks⟩ := keystream_congr (congrArg Platform.cipher hplat) hk hn
  have hclen : o.clen = s.plen := by rw [State.clen, hinl, Nat.add_sub_cancel]
  obtain ⟨hC, hT⟩ : o.mem.readSeq o.ina s.plen = s.sealCipher ∧
      o.mem.readSeq (o.ina + s.plen) 16 = s.sealTag.toList :=
    readSeq_parts (sealCipher_length s) ((readSeq_congr hwin).trans (sealMem_window s))
  have hclaimed : o.claimedTag = o.openTag.toList := by
    rw [State.claimedTag, State.openTag, hclen, hT, hC, sealTag_of_adApart hapart, hplat, hotk, hadl, readSeq_congr had]
  have hplain : o.openPlain = s.mem.readSeq s.ina s.plen := by
    rw [State.openPlain, hclen, hC, hks, State.sealCipher, xorBytes_xorBytes (by simp)]
  have hsealed := (sealResult s hs hflaw hok hreach).1
  have hopened := (openValidResult o ho hoflaw (by rw [hplat, hk, hn, hok]) horeach hclaimed).1
  refine ⟨_, _, _, _, hsealed, rfl, rfl, rfl, rfl, ?_, hopened, rfl, rfl, rfl, ?_, ?_⟩
  · have hplen := (sealFlaw_none hflaw).1
    exact Nat.mod_eq_of_lt (by omega)
  · exact (Nat.mod_eq_of_lt (clen_lt o)).trans hclen
  · rw [← hplain]
    exact writeSeq_readSeq _ _ (by rw [hplain, readSeq_length])

end Sys2Proof.Machine

namespace Sys2Proof.Machine

/-! ## Failed accesses -/

/-- An access the platform allows, of a byte with side effects, is refused by name (R67, U11, log 10). -/
theorem exec_device {s : State} {i : Instr} {acc : AccessKind} {x : Nat} (h : s.nextAccess i = some (acc, x))
    (hok : memOk s.plat acc x = true) (hd : isDevice s.plat x = true) : exec i s = .refused .deviceBuffer := by
  have ha := exec_accesses h
  cases acc with
  | read =>
    obtain ⟨k, e⟩ := ha
    exact e.trans (busRead_device k hok hd)
  | write =>
    obtain ⟨v, k, e⟩ := ha
    exact e.trans (busWrite_device v k hok hd)

/-- Settles O31: the access decides the step, and BUS_ERR, being fatal, leaves FATAL set whatever it was. -/
theorem failedAccessStopsTheCommand : Obligations.FailedAccessStopsTheCommand := by
  intro s i acc x h
  refine ⟨fun hfail => ?_, exec_device h⟩
  rw [exec_busErr h hfail, complete_fatal isFatal_busErr]

/-! ## The fatal lock -/

/-- The engine is fatally locked with result `r`: no command runs, and nothing is left of the last one (R214). -/
def State.Locked (s : State) (r : Result) : Prop :=
  s.regs.fatal = true ∧ s.regs.result = r ∧ s.regs.busy = false ∧ s.hid = Hidden.zero

/-- The engine is in the reset state, or still locked with result `r`. -/
def State.ResetOrLocked (s : State) (r : Result) : Prop :=
  (s.regs = Regs.reset ∧ s.hid = Hidden.zero) ∨ s.Locked r

/-- Under the control invariant FATAL excludes a running command. -/
theorem locked_of_fatal {s : State} (hs : s.Inv) (hf : s.regs.fatal = true) : s.Locked s.regs.result := by
  obtain ⟨hquiet, hbusy, _⟩ := hs
  have hidle : s.regs.busy = false := by
    by_contra hb
    obtain ⟨_, hclear, _⟩ := hbusy (by simpa using hb)
    simp [hf] at hclear
  exact ⟨hf, rfl, hidle, hquiet hidle⟩

theorem locked_op {s : State} {r : Result} (hl : s.Locked r) : s.hid.op = none := by
  obtain ⟨_, _, _, hh⟩ := hl
  rw [hh]
  rfl

theorem locked_congr {s u : State} {r : Result} (hr : u.regs = s.regs) (hh : u.hid = s.hid) (hl : s.Locked r) :
    u.Locked r := by
  unfold State.Locked
  rwa [hr, hh]

theorem resetOrLocked_congr {s u : State} {r : Result} (hr : u.regs = s.regs) (hh : u.hid = s.hid)
    (h : s.ResetOrLocked r) : u.ResetOrLocked r := by
  unfold State.ResetOrLocked State.Locked
  rwa [hr, hh]

/-- Of all register writes only the soft reset ends the lock; acceptance needs FATAL clear (R160, R241). -/
theorem regWrite_resetOrLocked {s : State} {q : Result} (hl : s.Locked q) (r : RegName) (v : Word) :
    (s.regWrite r v).ResetOrLocked q := by
  rcases regWrite_cases s r v with e | e | e | ⟨_, _, hclear, _⟩ | e | e | ⟨_, _, _, _, _, _, _, _, _, e⟩
  case inr.inr.inl =>
    rw [e]
    exact .inl ⟨rfl, rfl⟩
  case inr.inr.inr.inl =>
    obtain ⟨hf, _⟩ := hl
    simp [hf] at hclear
  all_goals
    rw [e]
    exact .inr hl

/-- A locked engine has no command to step, so only the host and the reset input can change it. -/
theorem step_resetOrLocked {s t : State} {q : Result} (hl : s.Locked q) (h : step s = .next t) :
    t.ResetOrLocked q := by
  obtain ⟨u, hu, hstep⟩ := step_next_cases h
  have hlu : u.Locked q := by
    rcases hu with rfl | ⟨_, _, _, rfl⟩ <;> exact hl
  rcases hstep with ⟨i, ho, _⟩ | ⟨hengine, _⟩ | rfl | rfl
  · simp [locked_op hl] at ho
  · rcases hengine with ⟨hr, hh⟩ | ⟨_, r, v, hr, hh⟩
    · exact .inr (locked_congr hr hh hlu)
    · exact resetOrLocked_congr hr hh (regWrite_resetOrLocked hlu r v)
  · exact .inl ⟨rfl, rfl⟩
  · exact .inr hlu

/-- Under the fatal lock a CMD write is ignored, whether or not a command runs (R160, R214). -/
theorem cmdWrite_locked {s : State} (hf : s.regs.fatal = true) (w : Word) : s.cmdWrite w = s.ignore := by
  rcases cmdWrite_cases s w with ⟨_, e⟩ | ⟨_, hclear, _⟩
  · exact e
  · simp [hf] at hclear

/-- Settles O45: FATAL under the control invariant is the lock, which every step but a reset keeps and which refuses
CMD writes. -/
theorem fatalLockHoldsUntilReset : Obligations.FatalLockHoldsUntilReset := by
  refine ⟨fun s t hs hf h => step_resetOrLocked (locked_of_fatal hs hf) h, fun s w hr hf => ?_⟩
  rw [portWrite_live hr portReg_cmd]
  exact cmdWrite_locked hf w

/-! ## The completion report -/

/-- IGN is bit 3 of STATUS, apart from the other fields (R26). -/
theorem statusWord_ign (g : Regs) :
    g.statusWord = Regs.statusWord { g with ign := false } ||| (if g.ign then 0x8 else 0) := by
  simp only [Regs.statusWord]
  generalize g.busy = b, g.done = d, g.fatal = f, g.ign = i, g.result.code = c
  revert b d f i c
  decide

/-- Settles O30: the word with IGN clear is read off for each result, and IGN adds its bit. -/
theorem completionReport : Obligations.CompletionReport := by
  intro s r n hf
  refine ⟨?_, rfl, rfl, rfl⟩
  have hclear := complete_statusWord (s := { s with regs := { s.regs with ign := false } }) hf rfl r n
  rw [statusWord_ign]
  refine congrArg (· ||| _) (hclear.trans ?_)
  cases r <;> rfl

end Sys2Proof.Machine

namespace Sys2Proof.Machine

/-! ## The reset state (R240) -/

theorem wordByte_zero (b : Nat) : wordByte 0#32 b = 0#8 := by simp [wordByte]

theorem keyBytes_zero {s : State} (h : s.regs.key = Vector.replicate 8 0) : s.keyBytes = Vector.replicate 32 0 := by
  ext i : 1
  simp [State.keyBytes, h, wordByte_zero]

theorem nonceBytes_zero {s : State} (h : s.regs.nonce = Vector.replicate 3 0) :
    s.nonceBytes = Vector.replicate 12 0 := by
  ext i : 1
  simp [State.nonceBytes, h, wordByte_zero]

/-- Of the registers only the two constants read other than 0 after reset (R22, R23). -/
theorem regRead_reset_zero {r : RegName} (hid : r ≠ .id) (hversion : r ≠ .version) : State.reset.regRead r = 0 := by
  cases r with
  | id => contradiction
  | version => contradiction
  | nonce j => exact Vector.getElem_replicate j.isLt
  | _ => rfl

/-- Settles O37: all registers but ID and VERSION read 0, K and N are bytes of zero words, and the hidden items are
those of `Hidden.zero`. -/
theorem resetLeavesTheSpecValues : Obligations.ResetLeavesTheSpecValues := by
  refine ⟨fun r => ?_, rfl, keyBytes_zero rfl, nonceBytes_zero rfl, rfl, rfl, rfl, rfl, rfl, rfl, rfl, rfl, rfl, rfl⟩
  cases r with
  | id => rfl
  | version => rfl
  | _ => exact regRead_reset_zero nofun nofun

/-- Settles O38: registers and hidden state are the reset ones, the engine is idle, and memory lists no cell. -/
theorem resetMeetsTheInvariants : Obligations.ResetMeetsTheInvariants :=
  ⟨inv_of_reset rfl rfl, stageData_of_idle rfl, .nil, nofun⟩

/-- Settles O52: the reset input is a turn of its own, and a write of CTRL with bit 1 set is the soft reset. -/
theorem resetInOneStep : Obligations.ResetInOneStep := by
  refine fun s ts => ⟨step_turn, step_turn, regWrite_held, fun hr v h1 => ?_⟩
  rw [portWrite_live hr portReg_ctrl]
  exact ctrlWrite_softReset h1 s

/-! ## Moves that change nothing (R243) -/

theorem engineStep_none {s : State} (h : s.hid.op = none) : s.engineStep = .next s := by
  simp only [State.engineStep, h]

theorem step_idle {s : State} (ht : s.turns = []) (hb : s.regs.busy = false) : step s = s.hostStep := by
  simp [step, State.advance, ht, State.defaultTurn, hb, State.move]

theorem hostStep_nil {s : State} (h : s.script = []) : s.hostStep = .next s := by
  simp only [State.hostStep, h]

/-- Settles O53: the zero hidden state names no command to step, and an idle engine leaves the default turn to the
host, whose script is empty. -/
theorem idleEngineWaits : Obligations.IdleEngineWaits := by
  have waits (s : State) (ht : s.turns = []) (hb : s.regs.busy = false) (hs : s.script = []) : step s = .next s :=
    (step_idle ht hb).trans (hostStep_nil hs)
  refine ⟨fun s ts ht hh => (step_turn ht).trans (engineStep_none ?_), waits, waits _ rfl rfl rfl⟩
  exact congrArg Hidden.op hh

end Sys2Proof.Machine
